-- ==== Sys2Proof/Word.lean ====
section
/-! DEFINITION. The two word types of the CORE (spec/10_state.md rule R12, spec/20_memory.md rule R34).
Addition and subtraction on them wrap (rule R8). -/

namespace Sys2Proof

/-- A register other than PC, or one memory cell: 8 bits (R5, R12). -/
abbrev Byte := BitVec 8

/-- PC, an address or a raw operand: 16 bits (R5, R12, R68). -/
abbrev Word := BitVec 16

end Sys2Proof
end

