-- ==== Sys2Proof/Syntax.lean ====
section
/-! DEFINITION. The instructions of the CORE, one constructor of `Instr` for each row of spec/opcode_table.json, and the
calls that the host's Execute port takes (spec/30_encoding.md, spec/40_addressing.md rule R67, spec/41_engine.md rule R85). -/

namespace Sys2Proof

/-- The closed set of nine addressing-mode tags (R67). STA's source names IndexedX and IndexedY are the tags
`absoluteX` and `absoluteY` (R97). -/
inductive Mode where
  | immediate
  | zeroPage
  | zeroPageX
  | zeroPageY
  | absolute
  | absoluteX
  | absoluteY
  | indexedIndirect
  | indirectIndexed
deriving DecidableEq, Repr

/-- The five instruction handlers (R2, R85); a fault record names one of them (R112). -/
inductive Handler where
  | lda
  | sta
  | tax
  | inx
  | brk
deriving DecidableEq, Repr

/-- What the host passes to the Execute port: LDA and STA take a 16-bit raw operand and a mode, the others neither (R85). -/
inductive HandlerCall where
  | lda (operand : Word) (mode : Mode)
  | sta (operand : Word) (mode : Mode)
  | tax
  | inx
  | brk
deriving DecidableEq, Repr

/-- The instructions, one constructor for each row of the opcode table. The first three and `unknown` are reached by the
dispatch (R59, R62). The others are handler forms with no opcode byte: only the Execute port reaches them (R2, R95, R96, R98). -/
inductive Instr where
  /-- LDA #imm, opcode 0xA9, with its operand byte (R94). -/
  | ldaImm (imm : Byte)
  /-- INX, opcode 0xE8 (R101). -/
  | inx
  /-- BRK, opcode 0x00 (R106). -/
  | brk
  /-- LDA zp: R72, R95. -/
  | ldaZeroPage (operand : Word)
  /-- LDA zp,X: R73, R95. -/
  | ldaZeroPageX (operand : Word)
  /-- LDA zp,Y: R74, R95. -/
  | ldaZeroPageY (operand : Word)
  /-- LDA abs: R75, R95. -/
  | ldaAbsolute (operand : Word)
  /-- LDA abs,X: R76, R95. -/
  | ldaAbsoluteX (operand : Word)
  /-- LDA abs,Y: R77, R95. -/
  | ldaAbsoluteY (operand : Word)
  /-- LDA (zp,X): R78, R95. -/
  | ldaIndexedIndirect (operand : Word)
  /-- LDA (zp),Y: R79, R95. -/
  | ldaIndirectIndexed (operand : Word)
  /-- STA zp: R72, R96. -/
  | staZeroPage (operand : Word)
  /-- STA abs: R75, R96. -/
  | staAbsolute (operand : Word)
  /-- STA abs,X, in the source IndexedX: R76, R97. -/
  | staAbsoluteX (operand : Word)
  /-- STA abs,Y, in the source IndexedY: R77, R97. -/
  | staAbsoluteY (operand : Word)
  /-- TAX: R98. -/
  | tax
  /-- Any opcode byte outside the dispatch table: R62. -/
  | unknown (opcode : Byte)
deriving DecidableEq, Repr

end Sys2Proof
end

