-- ==== Sys2Proof/WellFormed.lean ====
section
/-! DEFINITION. Which terms stand for an instruction or a call inside the spec's contract: an unknown opcode is a byte outside
the dispatch set (spec/30_encoding.md rule R62), and the raw operand of a one-byte zero-page operand has a zero high byte
(spec/40_addressing.md rule R68). -/

namespace Sys2Proof

/-- Only `unknown` carries a condition: its byte is none of the three dispatched opcodes (R59, R62). -/
def Instr.wf : Instr → Bool
  | .unknown opcode => opcode != 0x00#8 && opcode != 0xA9#8 && opcode != 0xE8#8
  | .ldaImm _ => true
  | .inx => true
  | .brk => true
  | .ldaZeroPage _ => true
  | .ldaZeroPageX _ => true
  | .ldaZeroPageY _ => true
  | .ldaAbsolute _ => true
  | .ldaAbsoluteX _ => true
  | .ldaAbsoluteY _ => true
  | .ldaIndexedIndirect _ => true
  | .ldaIndirectIndexed _ => true
  | .staZeroPage _ => true
  | .staAbsolute _ => true
  | .staAbsoluteX _ => true
  | .staAbsoluteY _ => true
  | .tax => true

/-- The modes whose operand is a single zero-page byte (R68). -/
def Mode.isZeroPage : Mode → Bool
  | .zeroPage => true
  | .zeroPageX => true
  | .zeroPageY => true
  | .indexedIndirect => true
  | .indirectIndexed => true
  | .immediate => false
  | .absolute => false
  | .absoluteX => false
  | .absoluteY => false

/-- The source's contract on raw operands: a zero-page mode gets an operand below 0x0100 (R68). Calls outside it run as well,
by the formulas applied literally (decision D14, assumption 10). -/
def HandlerCall.inContract : HandlerCall → Bool
  | .lda operand mode => !mode.isZeroPage || decide (operand.toNat < 256)
  | .sta operand mode => !mode.isZeroPage || decide (operand.toNat < 256)
  | .tax => true
  | .inx => true
  | .brk => true

end Sys2Proof
end

