-- ==== Sys2Proof/Decode.lean ====
section
/-! DEFINITION. The dispatch table, the decoder over bytes, and the encoder (spec/30_encoding.md rules R56 to R63). -/

namespace Sys2Proof

/-- The four outcomes of the dispatch (R59). -/
inductive DispatchEntry where
  | brk
  | ldaImmediate
  | inx
  | unknown
deriving DecidableEq, Repr

/-- The dispatch table: total on opcode bytes, and all eight bits are read (R59, R62). -/
def dispatch (opcode : Byte) : DispatchEntry :=
  if opcode = 0x00#8 then .brk
  else if opcode = 0xA9#8 then .ldaImmediate
  else if opcode = 0xE8#8 then .inx
  else .unknown

/-- Why a list of bytes holds no whole instruction. DESIGN CHOICE (assumption 21): the engine always finds a next byte in its
memory (R82), so these two arise only on a list that ends early. -/
inductive DecodeError where
  /-- The list is empty: there is no opcode byte. -/
  | noOpcode
  /-- The list ends after an opcode that takes an operand byte. -/
  | missingOperand (opcode : Byte)
deriving DecidableEq, Repr

/-- The instruction at the head of a list of bytes, with the bytes after it (R56 to R60). A byte outside the table decodes to
`unknown`, the opcode table's own row for it (R62). -/
def decode : List Byte → Except DecodeError (Instr × List Byte)
  | [] => .error .noOpcode
  | opcode :: rest =>
    match dispatch opcode with
    | .brk => .ok (.brk, rest)
    | .inx => .ok (.inx, rest)
    | .unknown => .ok (.unknown opcode, rest)
    | .ldaImmediate =>
      match rest with
      | [] => .error (.missingOperand opcode)
      | imm :: rest' => .ok (.ldaImm imm, rest')

/-- How many instruction bytes a Step fetches for an instruction (R60). An unknown opcode has no length, and one byte of it is
fetched. The handler forms are never fetched. -/
def fetchLength : Instr → Nat
  | .ldaImm _ => 2
  | .inx => 1
  | .brk => 1
  | .unknown _ => 1
  | .ldaZeroPage _ => 0
  | .ldaZeroPageX _ => 0
  | .ldaZeroPageY _ => 0
  | .ldaAbsolute _ => 0
  | .ldaAbsoluteX _ => 0
  | .ldaAbsoluteY _ => 0
  | .ldaIndexedIndirect _ => 0
  | .ldaIndirectIndexed _ => 0
  | .staZeroPage _ => 0
  | .staAbsolute _ => 0
  | .staAbsoluteX _ => 0
  | .staAbsoluteY _ => 0
  | .tax => 0

/-- The bytes of an instruction in the instruction stream (R57 to R59), or none for a handler form, which has no opcode in this
hardware (R95, R96, R98). -/
def encode : Instr → Option (List Byte)
  | .ldaImm imm => some [0xA9#8, imm]
  | .inx => some [0xE8#8]
  | .brk => some [0x00#8]
  | .unknown opcode => some [opcode]
  | .ldaZeroPage _ => none
  | .ldaZeroPageX _ => none
  | .ldaZeroPageY _ => none
  | .ldaAbsolute _ => none
  | .ldaAbsoluteX _ => none
  | .ldaAbsoluteY _ => none
  | .ldaIndexedIndirect _ => none
  | .ldaIndirectIndexed _ => none
  | .staZeroPage _ => none
  | .staAbsolute _ => none
  | .staAbsoluteX _ => none
  | .staAbsoluteY _ => none
  | .tax => none

/-- The longest instruction, as bytes in memory order, of a table word: bit 0 of `w` is the least significant bit of the first
byte, the second byte is bits 15..8, and every bit from `nbits` up is 0. -/
def tableBytes (nbits w : Nat) : List Byte :=
  [BitVec.ofNat 8 (w % 2 ^ nbits), BitVec.ofNat 8 (w % 2 ^ nbits / 256)]

/-- What the decoder reads from a word numbered as the opcode table numbers it. -/
def decodeTableWord (nbits w : Nat) : Option Instr :=
  match decode (tableBytes nbits w) with
  | .ok (i, _) => some i
  | .error _ => none

end Sys2Proof
end

