-- ==== Sys2Proof/Config.lean ====
section
/-! DEFINITION. The fixed values of the CORE, each one a named constant so that an audit can change it in one place
(spec/00_scope.md rule R5, decision D1), and its one Boolean parameter (rule R6, decision D4). -/

namespace Sys2Proof.Config

/-- 65,536 cells (R5, R34). -/
def memorySize : Nat := 65536

/-- The reset vector: low byte here, high byte at the next address (R5). -/
def resetVector : Word := 0xFFFC#16

/-- The interrupt (BRK) vector: low byte here, high byte at the next address (R5). -/
def interruptVector : Word := 0xFFFE#16

/-- Where LoadProgram puts a program (R5, R41). -/
def programOrigin : Word := 0x8000#16

/-- The stack page: the byte SP points at is at this address plus SP (R16). -/
def stackPage : Word := 0x0100#16

/-- A, X and Y after reset (R32). -/
def indexAfterReset : Byte := 0x00#8

/-- SP after reset (R32). -/
def spAfterReset : Byte := 0xFD#8

/-- P after reset: I and U set (R32). -/
def pAfterReset : Byte := 0x24#8

/-- PC after power-on: the reset vector of an all-zero memory (R32, R127). -/
def pcAfterPowerOn : Word := 0x0000#16

/-- The bits BRK forces on in the status byte it pushes (R5, R106). -/
def brkPushedBits : Byte := 0x30#8

/-- What the BRK handler adds to PC before it pushes it (R5, R106). -/
def brkPcAdvance : Word := 2#16

/-- What an address that memory does not list reads as. UNVERIFIED (assumption 5): PowerOn clears every byte by the
spec's own decision D8 (R127). -/
def unlistedByte : Byte := 0x00#8

/-- `BRK_RESUMES`, at the default the spec gives it (R6). Both values have a model: `Machine.stepWith` and
`Machine.executeWith` take the parameter, and `Machine.step` is `stepWith` at this value (assumption 4). -/
def brkResumes : Bool := false

end Sys2Proof.Config
end

