-- ==== Sys2Proof/Machine/State.lean ====
section
/-! DEFINITION. The state of the CORE: the six registers, the memory and the run state, and nothing else
(spec/10_state.md rules R12, R22 and R33; spec/20_memory.md rule R34), with its reset value and the reasons an operation stops. -/

namespace Sys2Proof.Machine

/-- The faults an engine operation raises; the run state holds the record (R22, R111, R112). -/
inductive EngineFault where
  /-- Raised by Step on an opcode outside the dispatch table: the byte and the address it was fetched from (R111). Safe: the
  spec names this fault and the state it leaves. -/
  | unknownOpcode (opcode : Byte) (pc : Word)
  /-- Raised by a handler given a mode outside its accepted set, before it reads or writes any state (R80, R112). Safe: the spec
  names this fault and the state it leaves. -/
  | invalidAddressingMode (op : Handler) (mode : Mode)
deriving DecidableEq, Repr

/-- The engine's run state (R22). -/
inductive RunState where
  /-- Step fetches and executes an instruction. -/
  | running
  /-- BRK has executed with `BRK_RESUMES = false`. -/
  | halted
  /-- An engine fault has been raised. -/
  | faulted (f : EngineFault)
deriving DecidableEq, Repr

/-- The 65,536 memory cells as (address, byte) pairs in the canonical form `Memory.wf` (R34). -/
abbrev Memory := List Host.Cell

/-- The whole state between two host operations (R33). The addressing mode and `BRK_RESUMES` are not state (R31, R33). -/
structure State where
  /-- A, the accumulator (R13). -/
  a : Byte
  /-- X, index register X (R14). -/
  x : Byte
  /-- Y, index register Y (R15). -/
  y : Byte
  /-- SP, the stack pointer (R16). -/
  sp : Byte
  /-- P, the status register (R18). -/
  p : Byte
  /-- PC, the program counter (R17). -/
  pc : Word
  /-- Mem, the one flat address space (R34). -/
  mem : Memory
  /-- Run, the run state (R22). -/
  run : RunState
deriving DecidableEq, Repr

def State.setA (s : State) (v : Byte) : State := { s with a := v }
def State.setX (s : State) (v : Byte) : State := { s with x := v }
def State.setSp (s : State) (v : Byte) : State := { s with sp := v }
def State.setP (s : State) (v : Byte) : State := { s with p := v }
def State.setPc (s : State) (v : Word) : State := { s with pc := v }
def State.setMem (s : State) (m : Memory) : State := { s with mem := m }
def State.setRun (s : State) (r : RunState) : State := { s with run := r }

/-- The CORE right after PowerOn: every byte of memory 0x00, and the registers as Reset leaves them (R32, R127). -/
def State.reset : State where
  a := Config.indexAfterReset
  x := Config.indexAfterReset
  y := Config.indexAfterReset
  sp := Config.spAfterReset
  p := Config.pAfterReset
  pc := Config.pcAfterPowerOn
  mem := []
  run := .running

/-- The three faults of the CORE (R10, R111 to R113), as an operation reports them to the host. -/
inductive Fault where
  /-- A fault of the engine. Step and Execute do not end in it: they answer the NEXT state the spec gives, whose run state
  holds the record (R22, R85, R89), and `reportedFault` reads it out. Safe: nothing of the state is lost. -/
  | engine (f : EngineFault)
  /-- Raised by LoadImage and LoadProgram when the image does not fit below 65,536: its origin and length (R113). The host's
  state is unchanged (R42). Safe: it is the failed result the spec gives. -/
  | imageOutOfRange (origin : Word) (length : Nat)
deriving DecidableEq, Repr

/-- The cause codes, the spec's own numbering (R111 to R113, decision D18); no rule depends on them. -/
def Fault.causeCode : Fault → Nat
  | .engine (.unknownOpcode _ _) => 1
  | .engine (.invalidAddressingMode _ _) => 2
  | .imageOutOfRange _ _ => 3

/-- Why the model has no answer. -/
inductive Refusal where
  /-- An instruction that has no meaning yet, named as the opcode table names it. No arm of `exec` answers with it: every
  instruction has its meaning. Safe. -/
  | notModelled (mnemonic : String)
deriving DecidableEq, Repr

end Sys2Proof.Machine
end

