-- ==== Sys2Proof/Machine/Flags.lean ====
section
/-! DEFINITION. The flags of P and the one shared Zero/Negative rule (spec/10_state.md rules R18 to R21). -/

namespace Sys2Proof.Machine

/-- The eight flags of P (R18). -/
inductive Flag where
  | c
  | z
  | i
  | d
  | b
  | u
  | v
  | n
deriving DecidableEq, Repr

/-- The flag masks (R18). UNVERIFIED (assumption 8): the positions of C, D, V and N rest on the order of the source's flag list,
the spec's own decision D20. -/
def Flag.mask : Flag → Byte
  | .c => 0x01#8
  | .z => 0x02#8
  | .i => 0x04#8
  | .d => 0x08#8
  | .b => 0x10#8
  | .u => 0x20#8
  | .v => 0x40#8
  | .n => 0x80#8

/-- `get_flag(F)` (R19). A read returns the stored bit, U's too (R20). -/
def getFlag (f : Flag) (s : State) : Bool := (s.p &&& f.mask) != 0#8

/-- `set_flag(F, value)`: merges the bit on or masks it off (R19). -/
def setFlag (f : Flag) (value : Bool) (s : State) : State :=
  s.setP (if value then s.p ||| f.mask else s.p &&& ~~~f.mask)

/-- `SetZN(v)`, the one shared copy of the Zero/Negative rule (R21). -/
def setZN (v : Byte) (s : State) : State :=
  setFlag .n (v.getLsbD 7) (setFlag .z (v == 0x00#8) s)

end Sys2Proof.Machine
end

