-- ==== Sys2Proof/Machine/Bits.lean ====
section
/-! DEFINITION. Bytes of a word and words of bytes (spec/00_scope.md rules R7 and R8). -/

namespace Sys2Proof.Machine

/-- `hi8(w)`, bits 15..8 (R7). -/
def hi8 (w : Word) : Byte := w.extractLsb' 8 8

/-- `lo8(w)`, bits 7..0 (R7). -/
def lo8 (w : Word) : Byte := w.extractLsb' 0 8

/-- `zext_16(b)` (R8). -/
def zext16 (b : Byte) : Word := b.setWidth 16

/-- `(h << 8) | l`, the 16-bit concatenation h:l (R7). -/
def join16 (h l : Byte) : Word := (zext16 h <<< 8) ||| zext16 l

/-- `w & 0x00FF`: the wrap of a computed address within page 0 (R72 to R74, R78, R79). -/
def inPageZero (w : Word) : Word := w &&& 0x00FF#16

end Sys2Proof.Machine
end

