-- ==== Sys2Proof/Machine/Memory.lean ====
section
/-! DEFINITION. The memory and its access primitives (spec/20_memory.md rules R34 to R40). A memory is a list of
(address, byte) pairs with strictly rising addresses, and a byte equal to what an unlisted address reads as is not listed. -/

namespace Sys2Proof.Machine

/-- The canonical form, from address `lo` on. -/
def Memory.wfFrom : Nat → Memory → Bool
  | _, [] => true
  | lo, (k, v) :: rest =>
    decide (lo ≤ k) && decide (k < Config.memorySize) && (v != Config.unlistedByte) && Memory.wfFrom (k + 1) rest

/-- The canonical form: addresses strictly rising and below 65,536, and no entry that an unlisted address would read as. -/
def Memory.wf (m : Memory) : Bool := Memory.wfFrom 0 m

/-- The byte at an address, in a list whose addresses rise. -/
def Memory.lookup : Memory → Nat → Byte
  | [], _ => Config.unlistedByte
  | (k, v) :: rest, addr =>
    if k < addr then Memory.lookup rest addr else if k = addr then v else Config.unlistedByte

/-- The entry of one address, as a list: none where the byte is what an unlisted address reads as. -/
def Memory.entry (addr : Nat) (value : Byte) : Memory :=
  if value = Config.unlistedByte then [] else [(addr, value)]

/-- One byte put at an address, in a list whose addresses rise, keeping the canonical form. -/
def Memory.update : Memory → Nat → Byte → Memory
  | [], addr, value => Memory.entry addr value
  | (k, v) :: rest, addr, value =>
    if k < addr then (k, v) :: Memory.update rest addr value
    else if k = addr then Memory.entry addr value ++ rest
    else Memory.entry addr value ++ (k, v) :: rest

/-- `read8(addr)`: total, and reading has no side effect (R35). -/
def Memory.read8 (m : Memory) (addr : Word) : Byte := m.lookup addr.toNat

/-- `write8(addr, value)`: total, and no other cell changes (R36). -/
def Memory.write8 (m : Memory) (addr : Word) (value : Byte) : Memory := m.update addr.toNat value

/-- `read16(addr)`: little-endian, with the 16-bit wrap between the two bytes (R37). -/
def Memory.read16 (m : Memory) (addr : Word) : Word := join16 (m.read8 (addr + 1)) (m.read8 addr)

/-- `write16(addr, value)`: the low byte at `addr`, then the high byte at `addr + 1` (R38). -/
def Memory.write16 (m : Memory) (addr value : Word) : Memory :=
  (m.write8 addr (lo8 value)).write8 (addr + 1) (hi8 value)

/-- `clear()`: every byte zero (R39). -/
def Memory.clear (_ : Memory) : Memory := []

/-- The copy loop of LoadImage: byte i at `addr + i` (R40). -/
def Memory.copyFrom : Memory → Word → List Byte → Memory
  | m, _, [] => m
  | m, addr, b :: rest => Memory.copyFrom (m.write8 addr b) (addr + 1) rest

end Sys2Proof.Machine
end

