-- ==== Sys2Proof/Machine/Ops.lean ====
section
/-! DEFINITION. The operations shared by the meanings and the engine: fetching, the stack, taking the software interrupt,
and raising an engine fault (spec/41_engine.md, spec/44_brk_stack.md). -/

namespace Sys2Proof.Machine

/-- `FetchByte()`: the byte at PC, and PC moved past it with the 16-bit wrap (R82). -/
def fetchByte (s : State) : Byte × State := (s.mem.read8 s.pc, s.setPc (s.pc + 1))

/-- The fetch part of `Step()`: the opcode, and an operand byte where the dispatch takes one; the state is the one the
handler finds (R83). -/
def fetchInstr (s : State) : Instr × State :=
  let (opcode, s₁) := fetchByte s
  match dispatch opcode with
  | .brk => (.brk, s₁)
  | .inx => (.inx, s₁)
  | .unknown => (.unknown opcode, s₁)
  | .ldaImmediate =>
    let (imm, s₂) := fetchByte s₁
    (.ldaImm imm, s₂)

/-- Where the byte SP points at lies: always in page 1 (R16, R105). -/
def stackAddr (sp : Byte) : Word := Config.stackPage + zext16 sp

/-- `Push(v)`: write, then decrement SP modulo 256 (R103). -/
def push (v : Byte) (s : State) : State :=
  (s.setMem (s.mem.write8 (stackAddr s.sp) v)).setSp (s.sp - 1)

/-- `Pop()`: increment SP modulo 256, then read (R104). No instruction calls it: the CORE has no return from its software
interrupt (R119). -/
def pop (s : State) : Byte × State :=
  let s₁ := s.setSp (s.sp + 1)
  (s₁.mem.read8 (stackAddr s₁.sp), s₁)

/-- The two bytes of PC on the stack, high byte first (R106). -/
def pushPc (s : State) : State := push (lo8 s.pc) (push (hi8 s.pc) s)

/-- The status byte on the stack, with bits 4 and 5 forced on (R106). -/
def pushStatus (s : State) : State := push (s.p ||| Config.brkPushedBits) s

/-- PC from a vector in memory (R106). -/
def loadPcFrom (vector : Word) (s : State) : State := s.setPc (s.mem.read16 vector)

/-- PC moved past the padding byte that conventionally follows BRK (R64, R106). -/
def advancePastPadding (s : State) : State := s.setPc (s.pc + Config.brkPcAdvance)

/-- Taking the software interrupt, in the order of R106: PC moves past the padding byte and goes on the stack, B and I are set,
the status goes on the stack, and PC comes from the interrupt vector. What the run state becomes is `brkHandler`'s. There is no
trap return to stand beside it (R119). -/
def takeInterrupt (s : State) : State :=
  loadPcFrom Config.interruptVector (pushStatus (setFlag .i true (setFlag .b true (pushPc (advancePastPadding s)))))

/-- Raising an engine fault: the record goes to the run state, and nothing else changes (R10, R85, R89). -/
def raiseFault (f : EngineFault) (s : State) : State := s.setRun (.faulted f)

/-- How a handler's end becomes the engine's next state: a raised fault makes the engine Faulted and leaves the rest of the state
as it was before the handler (R10, R85). -/
def settle (s : State) : Except EngineFault State → Host.Outcome State Fault Refusal
  | .ok t => .next t
  | .error f => .next (raiseFault f s)

end Sys2Proof.Machine
end

