-- ==== Sys2Proof/Machine/Brk.lean ====
section
/-! DEFINITION. BRK, and what the engine does with an opcode outside its dispatch table (spec/44_brk_stack.md,
spec/60_exceptions.md rule R111). -/

namespace Sys2Proof.Machine

/-- `BRK()` under the parameter `BRK_RESUMES` (R106, R109). -/
def brkHandler (resumes : Bool) (s : State) : State :=
  let t := takeInterrupt s
  if resumes then t else t.setRun .halted

/-- BRK, with `BRK_RESUMES` at its default (R6, R106). -/
def execBrk (s : State) : Host.Outcome State Fault Refusal := .next (brkHandler Config.brkResumes s)

/-- An unknown opcode: the engine becomes Faulted with the byte and the address it was fetched from, which is one below the PC
that its fetch left, and nothing else changes (R89, R111). DEDUCED (assumption 2): that address is recovered from PC. -/
def execUnknown (opcode : Byte) (s : State) : Host.Outcome State Fault Refusal :=
  .next (raiseFault (.unknownOpcode opcode (s.pc - 1)) s)

end Sys2Proof.Machine
end

