-- ==== Sys2Proof/Machine/Increment.lean ====
section
/-! DEFINITION. INX (spec/43_increment.md). -/

namespace Sys2Proof.Machine

/-- `INX()`: X + 1 modulo 256, then the Zero/Negative rule on the new X (R101). -/
def inxHandler (s : State) : State :=
  let v := s.x + 1
  setZN v (s.setX v)

/-- INX (R101). -/
def execInx (s : State) : Host.Outcome State Fault Refusal := .next (inxHandler s)

end Sys2Proof.Machine
end

