-- ==== Sys2Proof/Machine/Operands.lean ====
section
/-! DEFINITION. The addressing resolver: nine modes, a value path and an address path, and the modes a handler accepts
(spec/40_addressing.md). It writes no state. -/

namespace Sys2Proof.Machine

/-- ZeroPage: R72. -/
def eaZeroPage (operand : Word) (_ : State) : Word := inPageZero operand

/-- ZeroPageX: R73. -/
def eaZeroPageX (operand : Word) (s : State) : Word := inPageZero (operand + zext16 s.x)

/-- ZeroPageY: R74. -/
def eaZeroPageY (operand : Word) (s : State) : Word := inPageZero (operand + zext16 s.y)

/-- Absolute: R75. -/
def eaAbsolute (operand : Word) (_ : State) : Word := operand

/-- AbsoluteX: R76. -/
def eaAbsoluteX (operand : Word) (s : State) : Word := operand + zext16 s.x

/-- AbsoluteY: R77. -/
def eaAbsoluteY (operand : Word) (s : State) : Word := operand + zext16 s.y

/-- IndexedIndirect, (zp,X): both pointer bytes are read within page 0 (R78). -/
def eaIndexedIndirect (operand : Word) (s : State) : Word :=
  let pointer := inPageZero (operand + zext16 s.x)
  join16 (s.mem.read8 (inPageZero (pointer + 1))) (s.mem.read8 pointer)

/-- IndirectIndexed, (zp),Y: the low pointer byte is read at the operand with no mask (R79; R68, decision D14, assumption 10). -/
def eaIndirectIndexed (operand : Word) (s : State) : Word :=
  let base := join16 (s.mem.read8 (inPageZero (operand + 1))) (s.mem.read8 operand)
  base + zext16 s.y

/-- `ResolveAddress(op, operand, mode)`, the address path (R70). Immediate has no address (decision D11, assumption 14). -/
def resolveAddress (op : Handler) (operand : Word) (mode : Mode) (s : State) : Except EngineFault Word :=
  match mode with
  | .zeroPage => .ok (eaZeroPage operand s)
  | .zeroPageX => .ok (eaZeroPageX operand s)
  | .zeroPageY => .ok (eaZeroPageY operand s)
  | .absolute => .ok (eaAbsolute operand s)
  | .absoluteX => .ok (eaAbsoluteX operand s)
  | .absoluteY => .ok (eaAbsoluteY operand s)
  | .indexedIndirect => .ok (eaIndexedIndirect operand s)
  | .indirectIndexed => .ok (eaIndirectIndexed operand s)
  | .immediate => .error (.invalidAddressingMode op .immediate)

/-- The value of the Immediate mode: the operand's low byte, with no memory access (R71). -/
def immediateValue (operand : Word) : Byte := lo8 operand

/-- `ResolveValue(op, operand, mode)`, the value path (R69). -/
def resolveValue (op : Handler) (operand : Word) (mode : Mode) (s : State) : Except EngineFault Byte :=
  if mode = .immediate then .ok (immediateValue operand)
  else
    match resolveAddress op operand mode s with
    | .ok ea => .ok (s.mem.read8 ea)
    | .error f => .error f

/-- The modes STA accepts (R80, R96); LDA accepts all nine (R80). -/
def staAccepts : Mode → Bool
  | .zeroPage => true
  | .absolute => true
  | .absoluteX => true
  | .absoluteY => true
  | .immediate => false
  | .zeroPageX => false
  | .zeroPageY => false
  | .indexedIndirect => false
  | .indirectIndexed => false

end Sys2Proof.Machine
end

