-- ==== Sys2Proof/Machine/LoadStore.lean ====
section
/-! DEFINITION. LDA, STA and TAX: the handlers, and one meaning for each row of the opcode table
(spec/42_load_store_transfer.md). A meaning starts from the state its handler finds: for a fetched instruction, the state after
the fetch (assumption 1). -/

namespace Sys2Proof.Machine

/-- `LDA(operand, mode)` (R93). -/
def ldaHandler (operand : Word) (mode : Mode) (s : State) : Except EngineFault State :=
  match resolveValue .lda operand mode s with
  | .ok v => .ok (setZN v (s.setA v))
  | .error f => .error f

/-- `STA(operand, mode)`: the mode check comes before any effect (R96). -/
def staHandler (operand : Word) (mode : Mode) (s : State) : Except EngineFault State :=
  if staAccepts mode then
    match resolveAddress .sta operand mode s with
    | .ok ea => .ok (s.setMem (s.mem.write8 ea s.a))
    | .error f => .error f
  else .error (.invalidAddressingMode .sta mode)

/-- `TAX()` (R98). -/
def taxHandler (s : State) : State := setZN s.a (s.setX s.a)

/-- LDA #imm: the operand byte, zero-extended, is the raw operand (R61, R94). -/
def execLdaImm (imm : Byte) (s : State) : Host.Outcome State Fault Refusal :=
  settle s (ldaHandler (zext16 imm) .immediate s)

/-- LDA zp (R95). -/
def execLdaZeroPage (operand : Word) (s : State) : Host.Outcome State Fault Refusal :=
  settle s (ldaHandler operand .zeroPage s)

/-- LDA zp,X (R95). -/
def execLdaZeroPageX (operand : Word) (s : State) : Host.Outcome State Fault Refusal :=
  settle s (ldaHandler operand .zeroPageX s)

/-- LDA zp,Y (R95). -/
def execLdaZeroPageY (operand : Word) (s : State) : Host.Outcome State Fault Refusal :=
  settle s (ldaHandler operand .zeroPageY s)

/-- LDA abs (R95). -/
def execLdaAbsolute (operand : Word) (s : State) : Host.Outcome State Fault Refusal :=
  settle s (ldaHandler operand .absolute s)

/-- LDA abs,X (R95). -/
def execLdaAbsoluteX (operand : Word) (s : State) : Host.Outcome State Fault Refusal :=
  settle s (ldaHandler operand .absoluteX s)

/-- LDA abs,Y (R95). -/
def execLdaAbsoluteY (operand : Word) (s : State) : Host.Outcome State Fault Refusal :=
  settle s (ldaHandler operand .absoluteY s)

/-- LDA (zp,X) (R95). -/
def execLdaIndexedIndirect (operand : Word) (s : State) : Host.Outcome State Fault Refusal :=
  settle s (ldaHandler operand .indexedIndirect s)

/-- LDA (zp),Y (R95). -/
def execLdaIndirectIndexed (operand : Word) (s : State) : Host.Outcome State Fault Refusal :=
  settle s (ldaHandler operand .indirectIndexed s)

/-- STA zp (R96, R97). -/
def execStaZeroPage (operand : Word) (s : State) : Host.Outcome State Fault Refusal :=
  settle s (staHandler operand .zeroPage s)

/-- STA abs (R96, R97). -/
def execStaAbsolute (operand : Word) (s : State) : Host.Outcome State Fault Refusal :=
  settle s (staHandler operand .absolute s)

/-- STA abs,X, the source's IndexedX (R96, R97). -/
def execStaAbsoluteX (operand : Word) (s : State) : Host.Outcome State Fault Refusal :=
  settle s (staHandler operand .absoluteX s)

/-- STA abs,Y, the source's IndexedY (R96, R97). -/
def execStaAbsoluteY (operand : Word) (s : State) : Host.Outcome State Fault Refusal :=
  settle s (staHandler operand .absoluteY s)

/-- TAX (R98). -/
def execTax (s : State) : Host.Outcome State Fault Refusal := .next (taxHandler s)

end Sys2Proof.Machine
end

