-- ==== Sys2Proof/Machine/Dispatch.lean ====
section
/-! DEFINITION. One arm for each constructor of `Instr`. -/

namespace Sys2Proof.Machine

def exec (i : Instr) (s : State) : Host.Outcome State Fault Refusal :=
  match i with
  | .ldaImm imm => Sys2Proof.Machine.execLdaImm imm s
  | .inx => Sys2Proof.Machine.execInx s
  | .brk => Sys2Proof.Machine.execBrk s
  | .ldaZeroPage operand => Sys2Proof.Machine.execLdaZeroPage operand s
  | .ldaZeroPageX operand => Sys2Proof.Machine.execLdaZeroPageX operand s
  | .ldaZeroPageY operand => Sys2Proof.Machine.execLdaZeroPageY operand s
  | .ldaAbsolute operand => Sys2Proof.Machine.execLdaAbsolute operand s
  | .ldaAbsoluteX operand => Sys2Proof.Machine.execLdaAbsoluteX operand s
  | .ldaAbsoluteY operand => Sys2Proof.Machine.execLdaAbsoluteY operand s
  | .ldaIndexedIndirect operand => Sys2Proof.Machine.execLdaIndexedIndirect operand s
  | .ldaIndirectIndexed operand => Sys2Proof.Machine.execLdaIndirectIndexed operand s
  | .staZeroPage operand => Sys2Proof.Machine.execStaZeroPage operand s
  | .staAbsolute operand => Sys2Proof.Machine.execStaAbsolute operand s
  | .staAbsoluteX operand => Sys2Proof.Machine.execStaAbsoluteX operand s
  | .staAbsoluteY operand => Sys2Proof.Machine.execStaAbsoluteY operand s
  | .tax => Sys2Proof.Machine.execTax s
  | .unknown opcode => Sys2Proof.Machine.execUnknown opcode s

end Sys2Proof.Machine
end

