-- ==== Sys2Proof/Machine/Step.lean ====
section
/-! DEFINITION. One Step of the engine (spec/41_engine.md rules R83 and R86), and the placing of an instruction where the next
Step fetches. -/

namespace Sys2Proof.Machine

/-- `Step()`: fetch, dispatch, execute while Running; a Halted or Faulted engine changes nothing (R83, R86). The run state that
Step returns is the next state's `run` (assumption 3). -/
def step (s : State) : Host.Outcome State Fault Refusal :=
  match s.run with
  | .running => exec (fetchInstr s).1 (fetchInstr s).2
  | .halted => .next s
  | .faulted _ => .next s

/-- `s` with the bytes of a table word at PC, PC + 1 and so on, and the engine Running, so that the next Step runs that
instruction. DESIGN CHOICE (assumption 18): it stands for the host's load of a program. -/
def State.withFetchWord (s : State) (nbits w : Nat) : State :=
  (s.setMem (s.mem.copyFrom s.pc (tableBytes nbits w))).setRun .running

end Sys2Proof.Machine
end

