-- ==== Sys2Proof/Machine/HostPort.lean ====
section
/-! DEFINITION. The CORE's interface to its driver: PowerOn, Reset, LoadImage, LoadProgram, Step and Run under either value of
`BRK_RESUMES`, Execute, Inspect and Dump (spec/00_scope.md rule R11). -/

namespace Sys2Proof.Machine

/-- `Reset()`, from any state: memory is kept, and PC comes from the reset vector (R128; decision D7, assumption 6). -/
def resetCore (s : State) : State where
  a := Config.indexAfterReset
  x := Config.indexAfterReset
  y := Config.indexAfterReset
  sp := Config.spAfterReset
  p := Config.pAfterReset
  pc := s.mem.read16 Config.resetVector
  mem := s.mem
  run := .running

/-- `PowerOn()`: every byte zero, then Reset (R127). -/
def powerOn (s : State) : State := resetCore (s.setMem s.mem.clear)

/-- `LoadImage(bytes, origin)`: the range check comes before any copy, without wrap (R40, R42). -/
def loadImage (bytes : List Byte) (origin : Word) (s : State) : Host.Outcome State Fault Refusal :=
  if origin.toNat + bytes.length > Config.memorySize then .fault (.imageOutOfRange origin bytes.length)
  else .next (s.setMem (s.mem.copyFrom origin bytes))

/-- `LoadProgram(bytes)`: the copy at the program origin, and after it the reset vector (R41). -/
def loadProgram (bytes : List Byte) (s : State) : Host.Outcome State Fault Refusal :=
  match loadImage bytes Config.programOrigin s with
  | .next t => .next (t.setMem (t.mem.write16 Config.resetVector Config.programOrigin))
  | .fault f => .fault f
  | .refused r => .refused r

/-- `exec` with `BRK_RESUMES` given: only BRK depends on it (R6). -/
def execWith (resumes : Bool) (i : Instr) (s : State) : Host.Outcome State Fault Refusal :=
  if i = .brk then .next (brkHandler resumes s) else exec i s

/-- `Step()` with `BRK_RESUMES` given (R83, R86). -/
def stepWith (resumes : Bool) (s : State) : Host.Outcome State Fault Refusal :=
  match s.run with
  | .running => execWith resumes (fetchInstr s).1 (fetchInstr s).2
  | .halted => .next s
  | .faulted _ => .next s

/-- `Run()` under fuel: the first state that is not Running. `none` says that the fuel ran out, which is no end of the run
(R84, R90). -/
def runWith (resumes : Bool) : Nat → State → Option State
  | 0, s => if s.run = .running then none else some s
  | fuel + 1, s =>
    if s.run = .running then
      match stepWith resumes s with
      | .next t => runWith resumes fuel t
      | .fault _ => none
      | .refused _ => none
    else some s

/-- The handler that Execute calls, and its end (R85). -/
def callHandler (resumes : Bool) (c : HandlerCall) (s : State) : Except EngineFault State :=
  match c with
  | .lda operand mode => ldaHandler operand mode s
  | .sta operand mode => staHandler operand mode s
  | .tax => .ok (taxHandler s)
  | .inx => .ok (inxHandler s)
  | .brk => .ok (brkHandler resumes s)

/-- `Execute(op, operand, mode)`: one handler on the current state, with no fetch; a stopped engine changes nothing
(R85, R86). -/
def executeWith (resumes : Bool) (c : HandlerCall) (s : State) : Host.Outcome State Fault Refusal :=
  match s.run with
  | .running => settle s (callHandler resumes c s)
  | .halted => .next s
  | .faulted _ => .next s

/-- Execute with `BRK_RESUMES` at its default. -/
def execute (c : HandlerCall) (s : State) : Host.Outcome State Fault Refusal := executeWith Config.brkResumes c s

/-- The fault the engine has surfaced, if it is Faulted (R111, R112). -/
def reportedFault (s : State) : Option Fault :=
  match s.run with
  | .running => none
  | .halted => none
  | .faulted f => some (.engine f)

/-- What `Inspect` returns: the registers, each flag by name, and the run state (R123). -/
structure Inspection where
  a : Byte
  x : Byte
  y : Byte
  sp : Byte
  pc : Word
  p : Byte
  carry : Bool
  zero : Bool
  interruptDisable : Bool
  decimal : Bool
  break_ : Bool
  unused : Bool
  overflow : Bool
  negative : Bool
  run : RunState
deriving DecidableEq, Repr

/-- `Inspect` (R123). -/
def inspect (s : State) : Inspection where
  a := s.a
  x := s.x
  y := s.y
  sp := s.sp
  pc := s.pc
  p := s.p
  carry := getFlag .c s
  zero := getFlag .z s
  interruptDisable := getFlag .i s
  decimal := getFlag .d s
  break_ := getFlag .b s
  unused := getFlag .u s
  overflow := getFlag .v s
  negative := getFlag .n s
  run := s.run

/-- `Dump(start, length)`: the bytes, with the address wrapping at 16 bits (R123; decision D22, assumption 20). -/
def dump : Word → Nat → State → List Byte
  | _, 0, _ => []
  | start, length + 1, s => s.mem.read8 start :: dump (start + 1) length s

/-- The host operations that can change the state (R11, R81). Inspect and Dump only read, and Run is repeated Step (R84). -/
inductive HostOp where
  | powerOn
  | reset
  | loadImage (bytes : List Byte) (origin : Word)
  | loadProgram (bytes : List Byte)
  | step
  | execute (c : HandlerCall)
deriving DecidableEq, Repr

/-- One host operation, with `BRK_RESUMES` given. -/
def hostOp (resumes : Bool) (op : HostOp) (s : State) : Host.Outcome State Fault Refusal :=
  match op with
  | .powerOn => .next (powerOn s)
  | .reset => .next (resetCore s)
  | .loadImage bytes origin => loadImage bytes origin s
  | .loadProgram bytes => loadProgram bytes s
  | .step => stepWith resumes s
  | .execute c => executeWith resumes c s

/-- The state the CORE is in after a host operation: a load that faults leaves the whole state unchanged (R42, R113). -/
def afterHostOp (resumes : Bool) (op : HostOp) (s : State) : State :=
  match hostOp resumes op s with
  | .next t => t
  | .fault _ => s
  | .refused _ => s

/-- The state after a sequence of host operations from PowerOn (R50: they are ordered by their calls). -/
def afterHostOps (resumes : Bool) : List HostOp → State → State
  | [], s => s
  | op :: rest, s => afterHostOps resumes rest (afterHostOp resumes op s)

end Sys2Proof.Machine
end

