-- ==== Sys2Proof/Safety.lean ====
section
/-! DEFINITION. The terms the statements use: what a frame keeps, what a loaded value does to the flags, and the invariants of the
reachable states (spec/10_state.md rules R21, R24 and R30). -/

namespace Sys2Proof.Machine

/-- The byte at an address given as a number below 65,536. -/
def byteAt (s : State) (addr : Nat) : Byte := s.mem.read8 (BitVec.ofNat 16 addr)

/-- The address that two pointer bytes make, little-endian, as a number (R44). -/
def pairAt (low high : Byte) : Nat := low.toNat + 256 * high.toNat

/-- Every flag outside `written` is as before. -/
def FlagsKept (written : List Flag) (s t : State) : Prop :=
  ∀ f, f ∉ written → getFlag f t = getFlag f s

/-- Every byte of memory outside the `stored` addresses reads as before. -/
def BytesKept (stored : List Word) (s t : State) : Prop :=
  ∀ addr, addr ∉ stored → t.mem.read8 addr = s.mem.read8 addr

/-- Z says whether `v` is zero, and N is bit 7 of `v` (R21). -/
def ZNShow (v : Byte) (t : State) : Prop :=
  getFlag .z t = decide (v.toNat = 0) ∧ getFlag .n t = decide (128 ≤ v.toNat)

/-- What a load of `v` into A leaves: A, Z and N show `v`, and everything else is as before. -/
def LoadedInto (v : Byte) (s t : State) : Prop :=
  t.a = v ∧ ZNShow v t ∧ FlagsKept [.z, .n] s t ∧
    t.x = s.x ∧ t.y = s.y ∧ t.sp = s.sp ∧ t.pc = s.pc ∧ t.run = s.run ∧ BytesKept [] s t

/-- What a write of `v` into X with the Zero/Negative rule leaves: X, Z and N show `v`, and everything else is as before. -/
def PutInX (v : Byte) (s t : State) : Prop :=
  t.x = v ∧ ZNShow v t ∧ FlagsKept [.z, .n] s t ∧
    t.a = s.a ∧ t.y = s.y ∧ t.sp = s.sp ∧ t.pc = s.pc ∧ t.run = s.run ∧ BytesKept [] s t

/-- What a store of A at `ea` leaves: that byte is A, and everything else is as before. -/
def StoredAt (ea : Word) (s t : State) : Prop :=
  t.mem.read8 ea = s.a ∧ BytesKept [ea] s t ∧
    t.a = s.a ∧ t.x = s.x ∧ t.y = s.y ∧ t.sp = s.sp ∧ t.p = s.p ∧ t.pc = s.pc ∧ t.run = s.run

/-- Everything but the run state is as before. -/
def OnlyRunChanged (s t : State) : Prop :=
  t.a = s.a ∧ t.x = s.x ∧ t.y = s.y ∧ t.sp = s.sp ∧ t.p = s.p ∧ t.pc = s.pc ∧ BytesKept [] s t

/-- What taking the software interrupt leaves: PC + 2 on the stack with its high byte at the higher address, below it the status
with bits 4 and 5 on, B and I set, PC from the interrupt vector, SP three lower, the run state `r`, and everything else as before
(R106). -/
def InterruptTaken (r : RunState) (s t : State) : Prop :=
  t.mem.read8 (stackAddr s.sp) = BitVec.ofNat 8 ((s.pc.toNat + 2) % 65536 / 256) ∧
    t.mem.read8 (stackAddr (s.sp - 1)) = BitVec.ofNat 8 ((s.pc.toNat + 2) % 256) ∧
    t.mem.read8 (stackAddr (s.sp - 2)) = (t.p ||| 0x30#8) ∧
    BytesKept [stackAddr s.sp, stackAddr (s.sp - 1), stackAddr (s.sp - 2)] s t ∧
    getFlag .b t = true ∧ getFlag .i t = true ∧ FlagsKept [.b, .i] s t ∧
    t.pc.toNat = pairAt (byteAt s 0xFFFE) (byteAt s 0xFFFF) ∧
    t.sp = s.sp - 3 ∧ t.a = s.a ∧ t.x = s.x ∧ t.y = s.y ∧ t.run = r

/-- The flags that no instruction writes, and I, are as Reset leaves them (R30). -/
def StatusInv (s : State) : Prop :=
  getFlag .i s = true ∧ getFlag .u s = true ∧ getFlag .c s = false ∧ getFlag .d s = false ∧ getFlag .v s = false

/-- B is clear until a BRK, which with `BRK_RESUMES = false` is where the engine halts (R30, R109). -/
def BreakInv (s : State) : Prop := s.run ≠ .halted → getFlag .b s = false

/-- A fault record of an unknown opcode names a byte outside the dispatch table (R111), and one of an invalid mode names STA with
a mode it does not accept (R112). -/
def FaultRecordInv (s : State) : Prop :=
  match s.run with
  | .running => True
  | .halted => True
  | .faulted (.unknownOpcode opcode _) => dispatch opcode = .unknown
  | .faulted (.invalidAddressingMode op mode) => op = .sta ∧ staAccepts mode = false

/-- Two states that agree on everything but P, and on memory but for the bytes at the `stored` addresses. -/
def SameButStatus (stored : List Word) (s t : State) : Prop :=
  t.a = s.a ∧ t.x = s.x ∧ t.y = s.y ∧ t.sp = s.sp ∧ t.pc = s.pc ∧ t.run = s.run ∧ BytesKept stored s t

/-- The forms of LDA. -/
def IsLda (i : Instr) : Prop :=
  (∃ imm, i = .ldaImm imm) ∨
    ∃ operand, i = .ldaZeroPage operand ∨ i = .ldaZeroPageX operand ∨ i = .ldaZeroPageY operand ∨ i = .ldaAbsolute operand ∨
      i = .ldaAbsoluteX operand ∨ i = .ldaAbsoluteY operand ∨ i = .ldaIndexedIndirect operand ∨ i = .ldaIndirectIndexed operand

/-- The forms of STA. -/
def IsSta (i : Instr) : Prop :=
  ∃ operand, i = .staZeroPage operand ∨ i = .staAbsolute operand ∨ i = .staAbsoluteX operand ∨ i = .staAbsoluteY operand

end Sys2Proof.Machine
end

