-- ==== Sys2Proof/Certificates/Slice0/Obligations.lean ====
section
/-! DEFINITION. The statements for the provers. A docstring names the rule or section of spec/ a statement formalises, and the
decision of the spec (D<n>) and the assumption of this model it rests on, where there is one. -/

open Sys2Proof Sys2Proof.Machine

/-! ### Reset, and the invariants of the reachable states -/

/-- R32 and R127: PowerOn from any state leaves exactly the reset state, with these values. The cleared memory is the spec's own
decision D8 (assumption 5). -/
def Obligations.PowerOnLeavesResetState : Prop :=
  ∀ s : State, powerOn s = State.reset ∧
    State.reset.a = 0x00#8 ∧ State.reset.x = 0x00#8 ∧ State.reset.y = 0x00#8 ∧ State.reset.sp = 0xFD#8 ∧
    State.reset.p = 0x24#8 ∧ State.reset.pc = 0x0000#16 ∧ State.reset.run = .running ∧
    ∀ addr, State.reset.mem.read8 addr = 0x00#8

/-- R128 and R129: Reset from any state, in any run state. That it keeps memory is the spec's own decision D7 (assumption 6). -/
def Obligations.ResetLoadsVectorKeepsMemory : Prop :=
  ∀ s : State,
    (resetCore s).a = 0x00#8 ∧ (resetCore s).x = 0x00#8 ∧ (resetCore s).y = 0x00#8 ∧ (resetCore s).sp = 0xFD#8 ∧
    (∀ f, getFlag f (resetCore s) = (decide (f = .i) || decide (f = .u))) ∧
    (resetCore s).pc.toNat = pairAt (byteAt s 0xFFFC) (byteAt s 0xFFFD) ∧
    (resetCore s).run = .running ∧ BytesKept [] s (resetCore s)

/-- The four invariants hold right after PowerOn (R30, R32; the canonical memory is the model's own, assumption 5). -/
def Obligations.InvariantsHoldAtReset : Prop :=
  State.reset.mem.wf = true ∧ StatusInv State.reset ∧ BreakInv State.reset ∧ FaultRecordInv State.reset

/-- The memory keeps its canonical form (assumption 5) in every step and every host operation, for either value of
`BRK_RESUMES`. -/
def Obligations.MemoryStaysCanonical : Prop :=
  (∀ s t : State, s.mem.wf = true → step s = .next t → t.mem.wf = true) ∧
    ∀ (resumes : Bool) (op : HostOp) (s : State), s.mem.wf = true → (afterHostOp resumes op s).mem.wf = true

/-- R30: I and U stay set, and C, D and V stay clear, in every step and every host operation, Execute included. -/
def Obligations.StatusInvariantIsKept : Prop :=
  (∀ s t : State, StatusInv s → step s = .next t → StatusInv t) ∧
    ∀ (resumes : Bool) (op : HostOp) (s : State), StatusInv s → StatusInv (afterHostOp resumes op s)

/-- R30 and R109: with `BRK_RESUMES = false`, B stays clear until the engine is Halted by a BRK. -/
def Obligations.BreakFlagClearUntilBrk : Prop :=
  (∀ s t : State, BreakInv s → step s = .next t → BreakInv t) ∧
    ∀ (op : HostOp) (s : State), BreakInv s → BreakInv (afterHostOp false op s)

/-- R111 and R112: a fault record always names an opcode outside the dispatch table, or STA with a mode it does not accept. -/
def Obligations.FaultRecordsAreGenuine : Prop :=
  (∀ s t : State, FaultRecordInv s → step s = .next t → FaultRecordInv t) ∧
    ∀ (resumes : Bool) (op : HostOp) (s : State), FaultRecordInv s → FaultRecordInv (afterHostOp resumes op s)

/-- R15, R30, R111 and R112 of every state that a sequence of host operations reaches from PowerOn: the canonical memory, the
status bits, genuine fault records, and Y still 0; with `BRK_RESUMES = false` also B clear until the halt. -/
def Obligations.ReachableStatesAreSound : Prop :=
  ∀ (resumes : Bool) (ops : List HostOp),
    (afterHostOps resumes ops State.reset).mem.wf = true ∧
    StatusInv (afterHostOps resumes ops State.reset) ∧
    FaultRecordInv (afterHostOps resumes ops State.reset) ∧
    (afterHostOps resumes ops State.reset).y = 0x00#8 ∧
    (resumes = false → BreakInv (afterHostOps resumes ops State.reset))

/-! ### The engine -/

/-- R83 and R87: when the bytes at PC decode to an instruction, a Step of a running engine is that instruction's meaning on the
state with PC moved past the instruction's bytes (assumption 1). -/
def Obligations.StepRunsDecodedInstruction : Prop :=
  ∀ (s : State) (i : Instr) (rest : List Byte), s.run = .running →
    decode [s.mem.read8 s.pc, s.mem.read8 (s.pc + 1)] = .ok (i, rest) →
    step s = exec i { s with pc := s.pc + BitVec.ofNat 16 (fetchLength i) }

/-- Every Step and every Execute answers a next state: nothing of the engine stops the model (R92; assumption 3). -/
def Obligations.EngineAlwaysAnswers : Prop :=
  ∀ (resumes : Bool) (s : State), (∃ t, step s = .next t) ∧ (∃ t, stepWith resumes s = .next t) ∧
    ∀ c, ∃ t, executeWith resumes c s = .next t

/-- R86: Step, Run and Execute change nothing in a Halted or Faulted engine. The spec's own decision D3 (assumption 17). -/
def Obligations.StoppedEngineChangesNothing : Prop :=
  ∀ (resumes : Bool) (s : State), s.run ≠ .running →
    step s = .next s ∧ stepWith resumes s = .next s ∧ (∀ c, executeWith resumes c s = .next s) ∧
    ∀ fuel, runWith resumes fuel s = some s

/-- R81: what makes a running engine leave Running. A Step halts exactly on the byte 0x00 with `BRK_RESUMES = false`, and faults
exactly on a byte outside the dispatch table. Rests on the spec's own decisions D4 and D5 (assumptions 3 and 4). -/
def Obligations.WhatStopsTheEngine : Prop :=
  ∀ (resumes : Bool) (s t : State), s.run = .running → stepWith resumes s = .next t →
    (t.run = .halted ↔ s.mem.read8 s.pc = 0x00#8 ∧ resumes = false) ∧
    ((∃ f, t.run = .faulted f) ↔ dispatch (s.mem.read8 s.pc) = .unknown) ∧
    (t.run = .running ↔ s.mem.read8 s.pc = 0xA9#8 ∨ s.mem.read8 s.pc = 0xE8#8 ∨
      (s.mem.read8 s.pc = 0x00#8 ∧ resumes = true))

/-- R6: the step of this model is the step for `BRK_RESUMES = false`, and the parameter shows only on the byte 0x00
(decision D4, assumption 4). -/
def Obligations.ResumeParameterShowsOnlyOnBrk : Prop :=
  ∀ s : State, step s = stepWith false s ∧
    (s.mem.read8 s.pc ≠ 0x00#8 → stepWith true s = stepWith false s)

/-- R87: PC after each kind of Step. The last row is the spec's own decision D6 (assumption 13). -/
def Obligations.ProgramCounterAfterStep : Prop :=
  ∀ s : State, s.run = .running → s.mem.wf = true → ∃ t, step s = .next t ∧
    (s.mem.read8 s.pc = 0xA9#8 → t.pc.toNat = (s.pc.toNat + 2) % 65536) ∧
    (s.mem.read8 s.pc = 0xE8#8 → t.pc.toNat = (s.pc.toNat + 1) % 65536) ∧
    (s.mem.read8 s.pc = 0x00#8 → t.pc.toNat = pairAt (byteAt s 0xFFFE) (byteAt s 0xFFFF)) ∧
    (dispatch (s.mem.read8 s.pc) = .unknown → t.pc.toNat = (s.pc.toNat + 1) % 65536)

/-- R88: LDA #imm at the top of the address space takes its operand from 0x0000, and PC wraps; one byte lower, only PC wraps. -/
def Obligations.FetchWrapsAtTop : Prop :=
  ∀ s : State, s.run = .running →
    (s.pc = 0xFFFF#16 → byteAt s 0xFFFF = 0xA9#8 →
      ∃ t, step s = .next t ∧ t.a = byteAt s 0x0000 ∧ t.pc = 0x0001#16) ∧
    (s.pc = 0xFFFE#16 → byteAt s 0xFFFE = 0xA9#8 →
      ∃ t, step s = .next t ∧ t.a = byteAt s 0xFFFF ∧ t.pc = 0x0000#16) ∧
    (s.pc = 0xFFFF#16 → byteAt s 0xFFFF = 0xE8#8 → ∃ t, step s = .next t ∧ t.pc = 0x0000#16)

/-- R82: FetchByte reads the byte at PC and moves PC one up with the 16-bit wrap, and does nothing else; the fetch of a whole
instruction moves PC past the instruction's bytes, and does nothing else either. -/
def Obligations.FetchByteReadsAndIncrements : Prop :=
  (∀ s : State, (fetchByte s).1 = byteAt s s.pc.toNat ∧ (fetchByte s).2.pc.toNat = (s.pc.toNat + 1) % 65536 ∧
    (fetchByte s).2 = { s with pc := (fetchByte s).2.pc }) ∧
  ∀ s : State, (fetchInstr s).2.pc.toNat = (s.pc.toNat + fetchLength (fetchInstr s).1) % 65536 ∧
    (fetchInstr s).2 = { s with pc := (fetchInstr s).2.pc } ∧
    ∃ own, encode (fetchInstr s).1 = some own ∧ own.length = fetchLength (fetchInstr s).1 ∧
      ∀ k (h : k < own.length), own[k] = byteAt s ((s.pc.toNat + k) % 65536)

/-- R89 and R111: a Step on a byte outside the dispatch table, and the meaning of that row. PC after the fault, and the PC in the
record, are the spec's own decision D6 (assumptions 2 and 13). -/
def Obligations.UnknownOpcodeFaults : Prop :=
  (∀ (opcode : Byte) (s : State), ∃ t, exec (.unknown opcode) s = .next t ∧
    t.run = .faulted (.unknownOpcode opcode (s.pc - 1)) ∧ OnlyRunChanged s t) ∧
  ∀ s : State, s.run = .running → s.mem.read8 s.pc ≠ 0x00#8 → s.mem.read8 s.pc ≠ 0xA9#8 → s.mem.read8 s.pc ≠ 0xE8#8 →
    ∃ t, step s = .next t ∧ t.run = .faulted (.unknownOpcode (s.mem.read8 s.pc) s.pc) ∧
      reportedFault t = some (.engine (.unknownOpcode (s.mem.read8 s.pc) s.pc)) ∧
      t.pc.toNat = (s.pc.toNat + 1) % 65536 ∧
      t.a = s.a ∧ t.x = s.x ∧ t.y = s.y ∧ t.sp = s.sp ∧ t.p = s.p ∧ BytesKept [] s t

/-- R84: Run for k Steps of fuel ends in t exactly when k Steps from s reach t and t is not Running. Fuel is the model's
(decision D24, assumption 19). -/
def Obligations.RunIsRepeatedStep : Prop :=
  ∀ (fuel : Nat) (s t : State), runWith false fuel s = some t ↔
    Host.Core.run Sys2Proof.core fuel s = .next t ∧ t.run ≠ .running

/-- R90: a memory full of 0xE8 runs forever, whatever the fuel (decision D24, assumption 19). -/
def Obligations.MemoryFullOfInxNeverEnds : Prop :=
  ∀ (resumes : Bool) (fuel : Nat) (s : State), s.run = .running → (∀ addr, s.mem.read8 addr = 0xE8#8) →
    runWith resumes fuel s = none

/-- R52: a byte written to memory is what the next fetch at that address reads, and an instruction placed at PC is what the next
Step runs (assumption 18 for `withFetchWord`). -/
def Obligations.PlacedInstructionIsTheNextToRun : Prop :=
  ∀ s : State, s.mem.wf = true →
    (∀ v, (fetchByte (s.setMem (s.mem.write8 s.pc v))).1 = v) ∧
    ∀ (nbits w : Nat) (i : Instr), decodeTableWord nbits w = some i →
      step (s.withFetchWord nbits w) =
        exec i { s.withFetchWord nbits w with pc := s.pc + BitVec.ofNat 16 (fetchLength i) }

/-! ### Encoding -/

/-- R59: the dispatch, outcome by outcome, with the lengths of its table. -/
def Obligations.DispatchTable : Prop :=
  ∀ (opcode imm : Byte) (rest : List Byte),
    (opcode = 0x00#8 → decode (opcode :: rest) = .ok (.brk, rest) ∧ fetchLength .brk = 1) ∧
    (opcode = 0xA9#8 → decode (opcode :: imm :: rest) = .ok (.ldaImm imm, rest) ∧ fetchLength (.ldaImm imm) = 2) ∧
    (opcode = 0xE8#8 → decode (opcode :: rest) = .ok (.inx, rest) ∧ fetchLength .inx = 1) ∧
    (opcode ≠ 0x00#8 → opcode ≠ 0xA9#8 → opcode ≠ 0xE8#8 → decode (opcode :: rest) = .ok (.unknown opcode, rest))

/-- Words of the opcode table written out from the spec's encodings: LDA #0x42, INX, BRK, and a byte outside the table
(R57, R58, R62). -/
def Obligations.TableWordsDecode : Prop :=
  decodeTableWord 16 0b0100001010101001 = some (.ldaImm 0b01000010#8) ∧
    decodeTableWord 8 0b11101000 = some .inx ∧
    decodeTableWord 8 0b00000000 = some .brk ∧
    decodeTableWord 8 0b11101010 = some (.unknown 0b11101010#8)

/-- Decoding the bytes of a well-formed instruction gives it back, with every operand, whatever follows it (R56 to R60). -/
def Obligations.DecodeInvertsEncode : Prop :=
  ∀ (i : Instr) (bytes rest : List Byte), i.wf = true → encode i = some bytes → decode (bytes ++ rest) = .ok (i, rest)

/-- What the decoder answers is a well-formed instruction whose own bytes are the ones consumed: no handler form is ever decoded,
and no byte is dropped (R59, R60, R95). -/
def Obligations.EncodeInvertsDecode : Prop :=
  ∀ (bytes rest : List Byte) (i : Instr), decode bytes = .ok (i, rest) →
    i.wf = true ∧ ∃ own, encode i = some own ∧ bytes = own ++ rest ∧ own.length = fetchLength i

/-! ### Memory and flags -/

/-- R36: a write puts the byte at its address, and no other cell changes. -/
def Obligations.WriteChangesOneCell : Prop :=
  ∀ (m : Memory) (addr : Word) (value : Byte), m.wf = true →
    (m.write8 addr value).read8 addr = value ∧
    ∀ other, other ≠ addr → (m.write8 addr value).read8 other = m.read8 other

/-- R37 and R38: 16-bit accesses are little-endian, wrap at 0xFFFF, and mirror each other. -/
def Obligations.SixteenBitAccessesAreLittleEndian : Prop :=
  ∀ (m : Memory) (addr value : Word), m.wf = true →
    (m.read16 addr).toNat = pairAt (m.read8 addr) (m.read8 (BitVec.ofNat 16 (addr.toNat + 1))) ∧
    (m.read16 0xFFFF#16).toNat = pairAt (m.read8 0xFFFF#16) (m.read8 0x0000#16) ∧
    (m.write16 addr value).read8 addr = BitVec.ofNat 8 (value.toNat % 256) ∧
    (m.write16 addr value).read8 (addr + 1) = BitVec.ofNat 8 (value.toNat / 256) ∧
    (∀ other, other ≠ addr → other ≠ addr + 1 → (m.write16 addr value).read8 other = m.read8 other) ∧
    (m.write16 addr value).read16 addr = value

/-- Canonical memories that read alike are the same data, so comparing states compares what they read (R34; the canonical form is
the model's, assumption 5). -/
def Obligations.EqualReadsMakeEqualMemories : Prop :=
  ∀ m m' : Memory, m.wf = true → m'.wf = true → (∀ addr, m.read8 addr = m'.read8 addr) → m = m'

/-- R19: the flag accessors work by mask on P, change no other bit and no other register, and read back what was set. -/
def Obligations.FlagAccessorsWorkByMask : Prop :=
  ∀ (f : Flag) (value : Bool) (s : State),
    (getFlag f s = true ↔ s.p &&& f.mask ≠ 0#8) ∧
    (setFlag f true s).p = (s.p ||| f.mask) ∧ (setFlag f false s).p = (s.p &&& ~~~f.mask) ∧
    getFlag f (setFlag f value s) = value ∧ FlagsKept [f] s (setFlag f value s) ∧
    (setFlag f value s).a = s.a ∧ (setFlag f value s).x = s.x ∧ (setFlag f value s).y = s.y ∧
    (setFlag f value s).sp = s.sp ∧ (setFlag f value s).pc = s.pc ∧ (setFlag f value s).run = s.run ∧
    (setFlag f value s).mem = s.mem

/-- R21: the one Zero/Negative rule, and that LDA, TAX and INX all use it. -/
def Obligations.ZeroNegativeRule : Prop :=
  (∀ (v : Byte) (s : State),
    (getFlag .z (setZN v s) = true ↔ v = 0x00#8) ∧ getFlag .n (setZN v s) = v.getLsbD 7 ∧
    FlagsKept [.z, .n] s (setZN v s) ∧
    (setZN v s).a = s.a ∧ (setZN v s).x = s.x ∧ (setZN v s).y = s.y ∧ (setZN v s).sp = s.sp ∧ (setZN v s).pc = s.pc ∧
    (setZN v s).run = s.run ∧ (setZN v s).mem = s.mem) ∧
  ∀ s : State,
    (∀ operand mode, ∃ v, ldaHandler operand mode s = .ok (setZN v { s with a := v })) ∧
    taxHandler s = setZN s.a { s with x := s.a } ∧
    ∃ v, inxHandler s = setZN v { s with x := v }

/-! ### Addressing -/

/-- R72 to R77: the effective addresses of the six direct modes, as numbers: masked to page 0 in the zero-page modes, wrapped at
16 bits in the absolute ones. -/
def Obligations.DirectEffectiveAddresses : Prop :=
  ∀ (op : Handler) (operand : Word) (s : State),
    (∃ ea, resolveAddress op operand .zeroPage s = .ok ea ∧ ea.toNat = operand.toNat % 256) ∧
    (∃ ea, resolveAddress op operand .zeroPageX s = .ok ea ∧ ea.toNat = (operand.toNat + s.x.toNat) % 256) ∧
    (∃ ea, resolveAddress op operand .zeroPageY s = .ok ea ∧ ea.toNat = (operand.toNat + s.y.toNat) % 256) ∧
    (∃ ea, resolveAddress op operand .absolute s = .ok ea ∧ ea.toNat = operand.toNat) ∧
    (∃ ea, resolveAddress op operand .absoluteX s = .ok ea ∧ ea.toNat = (operand.toNat + s.x.toNat) % 65536) ∧
    (∃ ea, resolveAddress op operand .absoluteY s = .ok ea ∧ ea.toNat = (operand.toNat + s.y.toNat) % 65536)

/-- R78 and R79: the effective addresses of the two indirect modes. The pointer bytes of (zp,X) and the high pointer byte of
(zp),Y wrap within page 0; the low pointer byte of (zp),Y is read at the operand with no mask; Y carries into the high byte. -/
def Obligations.IndirectEffectiveAddresses : Prop :=
  ∀ (op : Handler) (operand : Word) (s : State),
    (∃ ea, resolveAddress op operand .indexedIndirect s = .ok ea ∧
      ea.toNat = pairAt (byteAt s ((operand.toNat + s.x.toNat) % 256)) (byteAt s ((operand.toNat + s.x.toNat + 1) % 256))) ∧
    (∃ ea, resolveAddress op operand .indirectIndexed s = .ok ea ∧
      ea.toNat =
        (pairAt (byteAt s operand.toNat) (byteAt s ((operand.toNat + 1) % 256)) + s.y.toNat) % 65536)

/-- R69 and R71: the value path. Immediate gives the operand's low byte, whatever the state, and every other mode one byte at the
address of the address path. -/
def Obligations.ValuePath : Prop :=
  ∀ (op : Handler) (operand : Word) (s : State),
    (∃ v : Byte, v.toNat = operand.toNat % 256 ∧ ∀ s' : State, resolveValue op operand .immediate s' = .ok v) ∧
    ∀ mode, mode ≠ .immediate →
      ∃ ea, resolveAddress op operand mode s = .ok ea ∧ resolveValue op operand mode s = .ok (s.mem.read8 ea)

/-! ### LDA, STA, TAX, INX -/

/-- R94: LDA #imm puts its operand byte into A and shows it in Z and N. Through Step, the operand is the byte after the opcode,
and PC ends two above the opcode's address, with the 16-bit wrap. -/
def Obligations.LdaImmediateLoadsOperandByte : Prop :=
  (∀ (imm : Byte) (s : State), encode (.ldaImm imm) = some [0b10101001#8, imm] ∧
    ∃ t, exec (.ldaImm imm) s = .next t ∧ LoadedInto imm s t) ∧
  ∀ s : State, s.run = .running → s.mem.read8 s.pc = 0b10101001#8 →
    ∃ t, step s = .next t ∧ LoadedInto (byteAt s ((s.pc.toNat + 1) % 65536)) { s with pc := s.pc + 2 } t

/-- R93 and R95, the three zero-page forms. That LDA takes ZeroPageY, and the reading of an operand above 0xFF, are the spec's own
decisions D13 and D14 (assumptions 10 and 11). -/
def Obligations.LdaZeroPageForms : Prop :=
  ∀ (operand : Word) (s : State),
    (∃ t, exec (.ldaZeroPage operand) s = .next t ∧ LoadedInto (byteAt s (operand.toNat % 256)) s t) ∧
    (∃ t, exec (.ldaZeroPageX operand) s = .next t ∧ LoadedInto (byteAt s ((operand.toNat + s.x.toNat) % 256)) s t) ∧
    (∃ t, exec (.ldaZeroPageY operand) s = .next t ∧ LoadedInto (byteAt s ((operand.toNat + s.y.toNat) % 256)) s t)

/-- R93 and R95, the three absolute forms. That a handler form is reached by Execute is the spec's own decision D2
(assumption 7). -/
def Obligations.LdaAbsoluteForms : Prop :=
  ∀ (operand : Word) (s : State),
    (∃ t, exec (.ldaAbsolute operand) s = .next t ∧ LoadedInto (byteAt s operand.toNat) s t) ∧
    (∃ t, exec (.ldaAbsoluteX operand) s = .next t ∧ LoadedInto (byteAt s ((operand.toNat + s.x.toNat) % 65536)) s t) ∧
    (∃ t, exec (.ldaAbsoluteY operand) s = .next t ∧ LoadedInto (byteAt s ((operand.toNat + s.y.toNat) % 65536)) s t)

/-- R93 and R95, the two indirect forms: (zp,X) and (zp),Y. The reading of an operand above 0xFF is the spec's own decision D14
(assumption 10). -/
def Obligations.LdaIndirectForms : Prop :=
  ∀ (operand : Word) (s : State),
    (∃ t, exec (.ldaIndexedIndirect operand) s = .next t ∧
      LoadedInto (byteAt s (pairAt (byteAt s ((operand.toNat + s.x.toNat) % 256))
        (byteAt s ((operand.toNat + s.x.toNat + 1) % 256)))) s t) ∧
    (∃ t, exec (.ldaIndirectIndexed operand) s = .next t ∧
      LoadedInto (byteAt s ((pairAt (byteAt s operand.toNat) (byteAt s ((operand.toNat + 1) % 256)) + s.y.toNat) % 65536)) s t)

/-- R96 and R97: each of STA's four forms stores A at its address and changes nothing else, no flag and no register. That the
source's IndexedX and IndexedY are AbsoluteX and AbsoluteY is the spec's own decision D12 (assumption 12). -/
def Obligations.StaStoresOneByte : Prop :=
  ∀ (operand : Word) (s : State), s.mem.wf = true →
    (∃ t, exec (.staZeroPage operand) s = .next t ∧
      ∀ ea, resolveAddress .sta operand .zeroPage s = .ok ea → StoredAt ea s t) ∧
    (∃ t, exec (.staAbsolute operand) s = .next t ∧
      ∀ ea, resolveAddress .sta operand .absolute s = .ok ea → StoredAt ea s t) ∧
    (∃ t, exec (.staAbsoluteX operand) s = .next t ∧
      ∀ ea, resolveAddress .sta operand .absoluteX s = .ok ea → StoredAt ea s t) ∧
    (∃ t, exec (.staAbsoluteY operand) s = .next t ∧
      ∀ ea, resolveAddress .sta operand .absoluteY s = .ok ea → StoredAt ea s t)

/-- R80, R96 and R112: STA called with any of its five unaccepted modes raises InvalidAddressingMode, the engine becomes Faulted
with that record, and nothing else changes; the address path itself raises it for Immediate. Rests on the spec's own decisions
D11, D12 and D15 (assumptions 12 and 14). -/
def Obligations.StaRejectsOtherModes : Prop :=
  ∀ (operand : Word) (mode : Mode) (s : State), s.run = .running →
    mode ≠ .zeroPage → mode ≠ .absolute → mode ≠ .absoluteX → mode ≠ .absoluteY →
    (∃ t, execute (.sta operand mode) s = .next t ∧ t.run = .faulted (.invalidAddressingMode .sta mode) ∧
      OnlyRunChanged s t) ∧
    ∀ op, resolveAddress op operand .immediate s = .error (.invalidAddressingMode op .immediate)

/-- R98: TAX copies A into X, shows it in Z and N, and changes nothing else; Execute reaches it, and no bytes decode to it. -/
def Obligations.TaxCopiesAIntoX : Prop :=
  (∀ s : State, (∃ t, exec .tax s = .next t ∧ PutInX s.a s t) ∧
    (s.run = .running → ∃ t, execute .tax s = .next t ∧ PutInX s.a s t)) ∧
  encode .tax = none ∧ ∀ bytes rest, decode bytes ≠ .ok (.tax, rest)

/-- R101: INX adds 1 to X modulo 256, shows the new X in Z and N, and changes nothing else, PC included; through Step, PC ends one
above the opcode's address. -/
def Obligations.InxIncrementsX : Prop :=
  (∀ s : State, (∃ t, exec .inx s = .next t ∧ PutInX (BitVec.ofNat 8 ((s.x.toNat + 1) % 256)) s t) ∧
    (s.run = .running → ∃ t, execute .inx s = .next t ∧ PutInX (BitVec.ofNat 8 ((s.x.toNat + 1) % 256)) s t)) ∧
  encode .inx = some [0b11101000#8] ∧
  ∀ s : State, s.run = .running → s.mem.read8 s.pc = 0b11101000#8 →
    ∃ t, step s = .next t ∧ PutInX (BitVec.ofNat 8 ((s.x.toNat + 1) % 256)) { s with pc := s.pc + 1 } t

/-! ### The stack and BRK -/

/-- R103: Push writes at 0x0100 + SP and then decrements SP modulo 256, and nothing but BRK moves SP. -/
def Obligations.PushWritesThenDecrements : Prop :=
  (∀ (v : Byte) (s : State), s.mem.wf = true →
    byteAt (push v s) (0x0100 + s.sp.toNat) = v ∧
    (∀ addr, addr < 65536 → addr ≠ 0x0100 + s.sp.toNat → byteAt (push v s) addr = byteAt s addr) ∧
    (push v s).sp.toNat = (s.sp.toNat + 255) % 256 ∧
    (push v s).a = s.a ∧ (push v s).x = s.x ∧ (push v s).y = s.y ∧ (push v s).p = s.p ∧ (push v s).pc = s.pc ∧
    (push v s).run = s.run) ∧
  ∀ (i : Instr) (s t : State), i ≠ .brk → exec i s = .next t → t.sp = s.sp

/-- R104: Pop increments SP modulo 256 and reads at 0x0100 + SP, changing nothing else; it reads back what was pushed last. -/
def Obligations.PopIncrementsThenReads : Prop :=
  (∀ s : State, (pop s).2.sp.toNat = (s.sp.toNat + 1) % 256 ∧
    (pop s).1 = byteAt s (0x0100 + (s.sp.toNat + 1) % 256) ∧
    (pop s).2.a = s.a ∧ (pop s).2.x = s.x ∧ (pop s).2.y = s.y ∧ (pop s).2.p = s.p ∧ (pop s).2.pc = s.pc ∧
    (pop s).2.run = s.run ∧ (pop s).2.mem = s.mem) ∧
  ∀ (v : Byte) (s : State), s.mem.wf = true → (pop (push v s)).1 = v ∧ (pop (push v s)).2.sp = s.sp

/-- R105: the stack never leaves page 1, and BRK writes nowhere else. -/
def Obligations.StackStaysInPageOne : Prop :=
  (∀ sp : Byte, 0x0100 ≤ (stackAddr sp).toNat ∧ (stackAddr sp).toNat ≤ 0x01FF) ∧
  stackAddr 0x00#8 = 0x0100#16 ∧ stackAddr (0x00#8 - 1) = 0x01FF#16 ∧
  ∀ (resumes : Bool) (s : State) (addr : Word), s.mem.wf = true → addr.toNat < 0x0100 ∨ 0x01FF < addr.toNat →
    (brkHandler resumes s).mem.read8 addr = s.mem.read8 addr

/-- R106: BRK takes the software interrupt, as a meaning, through Execute and through Step. With `BRK_RESUMES = false`, the value
of this model, the engine halts; with true it keeps its run state. -/
def Obligations.BrkTakesTheInterrupt : Prop :=
  encode .brk = some [0b00000000#8] ∧
  ∀ s : State, s.mem.wf = true →
    (∃ t, exec .brk s = .next t ∧ InterruptTaken .halted s t) ∧
    InterruptTaken .halted s (brkHandler false s) ∧ InterruptTaken s.run s (brkHandler true s) ∧
    (s.run = .running → ∀ resumes : Bool, ∃ t, executeWith resumes .brk s = .next t ∧
      InterruptTaken (if resumes then .running else .halted) s t) ∧
    (s.run = .running → s.mem.read8 s.pc = 0b00000000#8 → ∀ resumes : Bool, ∃ t, stepWith resumes s = .next t ∧
      InterruptTaken (if resumes then .running else .halted) { s with pc := s.pc + 1 } t)

/-- R108: the status byte BRK pushes is the status before it with bits 2, 4 and 5 on, so `status | 0x30` wherever I was set. Rests
on the flag positions, the spec's own decision D20, and on its resolution C3 (assumptions 8 and 16). -/
def Obligations.BrkPushedStatusByte : Prop :=
  ∀ (resumes : Bool) (s : State), s.mem.wf = true →
    (brkHandler resumes s).mem.read8 (stackAddr (s.sp - 2)) = (s.p ||| 0x34#8) ∧
    (getFlag .i s = true → (brkHandler resumes s).mem.read8 (stackAddr (s.sp - 2)) = (s.p ||| 0x30#8)) ∧
    (brkHandler resumes s).p = (s.p ||| 0x14#8)

/-- R107: through Step, BRK at address a pushes a + 3, the high byte at the higher address. Rests on the spec's resolution C6
(assumption 16). -/
def Obligations.BrkThroughStepPushesPlusThree : Prop :=
  ∀ s : State, s.run = .running → s.mem.wf = true → s.mem.read8 s.pc = 0x00#8 →
    ∃ t, step s = .next t ∧
      t.mem.read8 (stackAddr s.sp) = BitVec.ofNat 8 ((s.pc.toNat + 3) % 65536 / 256) ∧
      t.mem.read8 (stackAddr (s.sp - 1)) = BitVec.ofNat 8 ((s.pc.toNat + 3) % 256)

/-- R120: with `BRK_RESUMES = true`, k nested BRKs lower SP by 3k modulo 256 and never stop the engine (decision D4,
assumption 4). -/
def Obligations.NestedBrksWrapTheStack : Prop :=
  ∀ (k : Nat) (s : State),
    ((brkHandler true)^[k] s).sp.toNat = (s.sp.toNat + 253 * k) % 256 ∧ ((brkHandler true)^[k] s).run = s.run ∧
    (0 < k → getFlag .b ((brkHandler true)^[k] s) = true ∧ getFlag .i ((brkHandler true)^[k] s) = true)

/-! ### Rules of the whole machine -/

/-- R13 to R17, R23 and R55: which instructions can change which piece of state. -/
def Obligations.WhoWritesWhat : Prop :=
  ∀ (i : Instr) (s t : State), exec i s = .next t →
    (t.a ≠ s.a → IsLda i) ∧ (t.x ≠ s.x → i = .tax ∨ i = .inx) ∧ t.y = s.y ∧
    (t.sp ≠ s.sp → i = .brk) ∧ (t.pc ≠ s.pc → i = .brk) ∧
    (t.p ≠ s.p → IsLda i ∨ i = .tax ∨ i = .inx ∨ i = .brk) ∧
    ((∃ addr, t.mem.read8 addr ≠ s.mem.read8 addr) → IsSta i ∨ i = .brk) ∧
    (t.run ≠ s.run → i = .brk ∨ ∃ opcode, i = .unknown opcode)

/-- R24 to R29: which instructions can change which flag, and that none clears I or B. -/
def Obligations.WhoWritesWhichFlag : Prop :=
  ∀ (i : Instr) (s t : State), exec i s = .next t →
    getFlag .c t = getFlag .c s ∧ getFlag .d t = getFlag .d s ∧ getFlag .u t = getFlag .u s ∧ getFlag .v t = getFlag .v s ∧
    (getFlag .i s = true → getFlag .i t = true) ∧ (getFlag .b s = true → getFlag .b t = true) ∧
    (getFlag .i t ≠ getFlag .i s → i = .brk) ∧ (getFlag .b t ≠ getFlag .b s → i = .brk) ∧
    (getFlag .z t ≠ getFlag .z s → IsLda i ∨ i = .tax ∨ i = .inx) ∧
    (getFlag .n t ≠ getFlag .n s → IsLda i ∨ i = .tax ∨ i = .inx)

/-- R26 and R117: no flag gates or feeds anything but the status byte that BRK pushes. Two Steps from states that differ only in P
end alike in everything else. -/
def Obligations.FlagsGateNothing : Prop :=
  ∀ (s : State) (p' : Byte), s.mem.wf = true →
    (∀ i : Instr, ∃ t t', exec i s = .next t ∧ exec i { s with p := p' } = .next t' ∧
      SameButStatus [stackAddr (s.sp - 2)] t t' ∧ (i ≠ .brk → SameButStatus [] t t')) ∧
    ∃ t t', step s = .next t ∧ step { s with p := p' } = .next t' ∧ SameButStatus [stackAddr (s.sp - 2)] t t'

/-- R92 and R114: a Step or Execute that faults has done nothing but move PC past the opcode (a Step) or nothing at all (an
Execute). PC after an unknown opcode is the spec's own decision D6 (assumption 13). -/
def Obligations.FaultsArePrecise : Prop :=
  ∀ (resumes : Bool) (s t : State) (f : EngineFault), s.run = .running → t.run = .faulted f →
    (stepWith resumes s = .next t → OnlyRunChanged { s with pc := s.pc + 1 } t) ∧
    ∀ c, executeWith resumes c s = .next t → OnlyRunChanged s t

/-! ### The host's interface -/

/-- R85: on a running engine, Execute of a handler form is that form's meaning, and LDA Immediate takes the low byte of its
operand. The port is the spec's own decision D2 (assumption 7). -/
def Obligations.ExecuteIsTheMeaning : Prop :=
  ∀ (operand : Word) (s : State), s.run = .running →
    execute (.lda operand .immediate) s = exec (.ldaImm (BitVec.ofNat 8 (operand.toNat % 256))) s ∧
    execute (.lda operand .zeroPage) s = exec (.ldaZeroPage operand) s ∧
    execute (.lda operand .zeroPageX) s = exec (.ldaZeroPageX operand) s ∧
    execute (.lda operand .zeroPageY) s = exec (.ldaZeroPageY operand) s ∧
    execute (.lda operand .absolute) s = exec (.ldaAbsolute operand) s ∧
    execute (.lda operand .absoluteX) s = exec (.ldaAbsoluteX operand) s ∧
    execute (.lda operand .absoluteY) s = exec (.ldaAbsoluteY operand) s ∧
    execute (.lda operand .indexedIndirect) s = exec (.ldaIndexedIndirect operand) s ∧
    execute (.lda operand .indirectIndexed) s = exec (.ldaIndirectIndexed operand) s ∧
    execute (.sta operand .zeroPage) s = exec (.staZeroPage operand) s ∧
    execute (.sta operand .absolute) s = exec (.staAbsolute operand) s ∧
    execute (.sta operand .absoluteX) s = exec (.staAbsoluteX operand) s ∧
    execute (.sta operand .absoluteY) s = exec (.staAbsoluteY operand) s ∧
    execute .tax s = exec .tax s ∧ execute .inx s = exec .inx s ∧ execute .brk s = exec .brk s

/-- R85 and R87: Execute moves PC only in BRK, and only BRK and an unaccepted mode change the run state (decision D2,
assumption 7). -/
def Obligations.ExecuteKeepsTheProgramCounter : Prop :=
  ∀ (resumes : Bool) (c : HandlerCall) (s t : State), executeWith resumes c s = .next t → c ≠ .brk →
    t.pc = s.pc ∧
    (t.run ≠ s.run → ∃ operand mode, c = .sta operand mode ∧ staAccepts mode = false ∧
      t.run = .faulted (.invalidAddressingMode .sta mode))

/-- R40 and R42: LoadImage copies an image that fits, byte i to origin + i, and changes nothing else; one that does not fit is
rejected whole, with its record. Rests on the spec's own decisions D9 and D10 (assumption 15). -/
def Obligations.LoadImageCopiesOrRejects : Prop :=
  ∀ (bytes : List Byte) (origin : Word) (s : State), s.mem.wf = true →
    (origin.toNat + bytes.length ≤ 65536 → ∃ t, loadImage bytes origin s = .next t ∧
      (∀ i (h : i < bytes.length), byteAt t (origin.toNat + i) = bytes[i]) ∧
      (∀ addr, addr < origin.toNat ∨ (origin.toNat + bytes.length ≤ addr ∧ addr < 65536) → byteAt t addr = byteAt s addr) ∧
      t.a = s.a ∧ t.x = s.x ∧ t.y = s.y ∧ t.sp = s.sp ∧ t.p = s.p ∧ t.pc = s.pc ∧ t.run = s.run) ∧
    (65536 < origin.toNat + bytes.length →
      loadImage bytes origin s = .fault (.imageOutOfRange origin bytes.length) ∧
      ∀ resumes, afterHostOp resumes (.loadImage bytes origin) s = s)

/-- R41 to R43: LoadProgram copies an image of at most 32,768 bytes to 0x8000, and after it points the reset vector there, over the
image where they meet; a longer one is rejected whole. Rests on the spec's own decision D9 (assumption 15). -/
def Obligations.LoadProgramPointsResetVector : Prop :=
  ∀ (bytes : List Byte) (s : State), s.mem.wf = true →
    (bytes.length ≤ 32768 → ∃ t, loadProgram bytes s = .next t ∧
      byteAt t 0xFFFC = 0x00#8 ∧ byteAt t 0xFFFD = 0x80#8 ∧
      (∀ i (h : i < bytes.length), i ≠ 0x7FFC → i ≠ 0x7FFD → byteAt t (0x8000 + i) = bytes[i]) ∧
      (∀ addr, addr < 0x8000 ∨ (0x8000 + bytes.length ≤ addr ∧ addr < 65536) → addr ≠ 0xFFFC → addr ≠ 0xFFFD →
        byteAt t addr = byteAt s addr) ∧
      t.a = s.a ∧ t.x = s.x ∧ t.y = s.y ∧ t.sp = s.sp ∧ t.p = s.p ∧ t.pc = s.pc ∧ t.run = s.run) ∧
    (32768 < bytes.length → loadProgram bytes s = .fault (.imageOutOfRange 0x8000#16 bytes.length) ∧
      ∀ resumes, afterHostOp resumes (.loadProgram bytes) s = s)

/-- R131: after LoadProgram and Reset the engine runs at 0x8000, where the program's first byte lies; LoadProgram alone leaves PC.
The boot order is the spec's own decision D26 (assumption 26). -/
def Obligations.BootStartsTheProgram : Prop :=
  ∀ (first : Byte) (rest : List Byte) (s t : State), s.mem.wf = true → loadProgram (first :: rest) s = .next t →
    t.pc = s.pc ∧ (resetCore t).pc = 0x8000#16 ∧ (resetCore t).run = .running ∧
    (resetCore t).mem.read8 (resetCore t).pc = first

/-- R123: Inspect reports the registers, each flag by its name and the run state, and Dump the bytes from its start address, which
wraps at 16 bits (decision D22, assumption 20). -/
def Obligations.InspectionReflectsTheState : Prop :=
  ∀ s : State,
    ((inspect s).a = s.a ∧ (inspect s).x = s.x ∧ (inspect s).y = s.y ∧ (inspect s).sp = s.sp ∧ (inspect s).pc = s.pc ∧
      (inspect s).p = s.p ∧ (inspect s).run = s.run) ∧
    ((inspect s).carry = s.p.getLsbD 0 ∧ (inspect s).zero = s.p.getLsbD 1 ∧ (inspect s).interruptDisable = s.p.getLsbD 2 ∧
      (inspect s).decimal = s.p.getLsbD 3 ∧ (inspect s).break_ = s.p.getLsbD 4 ∧ (inspect s).unused = s.p.getLsbD 5 ∧
      (inspect s).overflow = s.p.getLsbD 6 ∧ (inspect s).negative = s.p.getLsbD 7) ∧
    ∀ (start : Word) (length : Nat), (dump start length s).length = length ∧
      ∀ i, i < length → (dump start length s)[i]? = some (byteAt s ((start.toNat + i) % 65536))
end

