-- ==== Sys2Proof/Laws/Bits.lean ====
section
/-! SUPPORT. Bytes and words read as numbers. -/

namespace Sys2Proof.Machine

theorem zext16_toNat (b : Byte) : (zext16 b).toNat = b.toNat := by
  simp only [zext16, BitVec.toNat_setWidth]; omega

theorem lo8_toNat (w : Word) : (lo8 w).toNat = w.toNat % 256 := by
  simp [lo8]

theorem hi8_toNat (w : Word) : (hi8 w).toNat = w.toNat / 256 := by
  simp only [hi8, BitVec.extractLsb'_toNat, Nat.shiftRight_eq_div_pow]; omega

theorem join16_toNat (h l : Byte) : (join16 h l).toNat = l.toNat + 256 * h.toNat := by
  have hh := h.isLt
  have hl := l.isLt
  have h1 : (h.toNat <<< 8) % 2 ^ 16 = 2 ^ 8 * h.toNat := by
    rw [Nat.shiftLeft_eq]; omega
  simp only [join16, BitVec.toNat_or, BitVec.toNat_shiftLeft, zext16_toNat, h1]
  rw [← Nat.two_pow_add_eq_or_of_lt (by omega)]
  omega

theorem join16_hi8_lo8 (w : Word) : join16 (hi8 w) (lo8 w) = w := by
  apply BitVec.eq_of_toNat_eq
  rw [join16_toNat, hi8_toNat, lo8_toNat]; omega

theorem inPageZero_toNat (w : Word) : (inPageZero w).toNat = w.toNat % 256 := by
  simp only [inPageZero, BitVec.toNat_and]
  exact Nat.and_two_pow_sub_one_eq_mod w.toNat 8

theorem lo8_zext16 (b : Byte) : lo8 (zext16 b) = b := by
  apply BitVec.eq_of_toNat_eq
  rw [lo8_toNat, zext16_toNat]; have := b.isLt; omega

end Sys2Proof.Machine
end

