-- ==== Sys2Proof/Laws/Memory.lean ====
section
/-! SUPPORT. The laws of the memory: a read after a write, the canonical form, and equal reads making equal memories
(spec/20_memory.md rules R35 to R40). -/

namespace Sys2Proof.Machine

theorem Memory.wfFrom_cons {lo k : Nat} {v : Byte} {rest : Memory} (h : Memory.wfFrom lo ((k, v) :: rest) = true) :
    lo ≤ k ∧ k < 65536 ∧ v ≠ 0#8 ∧ Memory.wfFrom (k + 1) rest = true := by
  simp only [Memory.wfFrom, Config.memorySize, Config.unlistedByte, Bool.and_eq_true, decide_eq_true_eq, bne_iff_ne] at h
  exact ⟨h.1.1.1, of_decide_eq_true h.1.1.2, h.1.2, h.2⟩

theorem Memory.wfFrom_cons_intro {lo k : Nat} {v : Byte} {rest : Memory} (h1 : lo ≤ k) (h2 : k < 65536) (h3 : v ≠ 0#8)
    (h4 : Memory.wfFrom (k + 1) rest = true) : Memory.wfFrom lo ((k, v) :: rest) = true := by
  simp [Memory.wfFrom, Config.memorySize, Config.unlistedByte, *]

theorem Memory.wfFrom_mono {lo lo' : Nat} (h : lo' ≤ lo) : ∀ {m : Memory}, Memory.wfFrom lo m = true →
    Memory.wfFrom lo' m = true
  | [], _ => rfl
  | (_, _) :: _, hm => by
    obtain ⟨h1, h2, h3, h4⟩ := Memory.wfFrom_cons hm
    exact Memory.wfFrom_cons_intro (by omega) h2 h3 h4

/-- Below the first listed address a canonical list reads as unlisted. -/
theorem Memory.lookup_below {lo addr : Nat} (h : addr < lo) : ∀ {m : Memory}, Memory.wfFrom lo m = true →
    m.lookup addr = 0#8
  | [], _ => rfl
  | (_, _) :: _, hm => by
    obtain ⟨h1, _, _, _⟩ := Memory.wfFrom_cons hm
    rw [Memory.lookup, if_neg (by omega), if_neg (by omega)]; rfl

theorem Memory.lookup_entry_append {lo addr : Nat} (value : Byte) (b : Nat) {rest : Memory} (hlo : addr < lo)
    (hr : Memory.wfFrom lo rest = true) :
    Memory.lookup (Memory.entry addr value ++ rest) b = if b = addr then value else rest.lookup b := by
  unfold Memory.entry
  split
  case isTrue hv =>
    split
    case isTrue hb => subst hb hv; exact Memory.lookup_below hlo hr
    case isFalse => simp
  case isFalse =>
    simp only [List.cons_append, List.nil_append, Memory.lookup]
    split
    case isTrue h => rw [if_neg (by omega)]
    case isFalse h =>
      split
      case isTrue h' => rw [if_pos h'.symm]
      case isFalse h' => rw [if_neg (by omega), Memory.lookup_below (by omega) hr]; rfl

theorem Memory.lookup_update {addr : Nat} (value : Byte) (b : Nat) : ∀ {m : Memory} {lo : Nat}, Memory.wfFrom lo m = true →
    (m.update addr value).lookup b = if b = addr then value else m.lookup b
  | [], lo, _ => by
    have := Memory.lookup_entry_append (rest := []) value b (Nat.lt_succ_self addr) rfl
    simpa [Memory.update] using this
  | (k, v) :: rest, lo, hm => by
    obtain ⟨h1, h2, h3, h4⟩ := Memory.wfFrom_cons hm
    rw [Memory.update]
    split
    case isTrue hk =>
      rw [Memory.lookup, Memory.lookup_update value b h4, Memory.lookup]
      by_cases hb : b = addr
      · rw [if_pos hb, if_pos hb, if_pos (by omega)]
      · rw [if_neg hb, if_neg hb]
    case isFalse hk =>
      split
      case isTrue hk' =>
        subst hk'
        rw [Memory.lookup_entry_append value b (Nat.lt_succ_self k) h4]
        by_cases hb : b = k
        · rw [if_pos hb, if_pos hb]
        · rw [if_neg hb, if_neg hb, Memory.lookup]
          by_cases hlt : k < b
          · rw [if_pos hlt]
          · rw [if_neg hlt, if_neg (Ne.symm hb), Memory.lookup_below (by omega) h4]; rfl
      case isFalse hk' =>
        have hm' : Memory.wfFrom (addr + 1) ((k, v) :: rest) = true := Memory.wfFrom_cons_intro (by omega) h2 h3 h4
        exact Memory.lookup_entry_append value b (Nat.lt_succ_self addr) hm'

theorem Memory.wfFrom_entry_append {lo addr : Nat} (value : Byte) {rest : Memory} (h1 : lo ≤ addr) (h2 : addr < 65536)
    (hr : Memory.wfFrom (addr + 1) rest = true) : Memory.wfFrom lo (Memory.entry addr value ++ rest) = true := by
  unfold Memory.entry
  split
  case isTrue => exact Memory.wfFrom_mono (by omega) hr
  case isFalse hv => exact Memory.wfFrom_cons_intro h1 h2 hv hr

theorem Memory.wfFrom_update {addr : Nat} (value : Byte) (ha : addr < 65536) : ∀ {m : Memory} {lo : Nat},
    lo ≤ addr → Memory.wfFrom lo m = true → Memory.wfFrom lo (m.update addr value) = true
  | [], lo, hlo, _ => by
    simpa [Memory.update] using Memory.wfFrom_entry_append (rest := []) value hlo ha rfl
  | (k, v) :: rest, lo, hlo, hm => by
    obtain ⟨h1, h2, h3, h4⟩ := Memory.wfFrom_cons hm
    rw [Memory.update]
    split
    case isTrue hk => exact Memory.wfFrom_cons_intro h1 h2 h3 (Memory.wfFrom_update value ha hk h4)
    case isFalse hk =>
      split
      case isTrue hk' => subst hk'; exact Memory.wfFrom_entry_append value hlo ha h4
      case isFalse hk' =>
        exact Memory.wfFrom_entry_append value hlo ha (Memory.wfFrom_cons_intro (by omega) h2 h3 h4)

theorem Memory.eq_of_lookup : ∀ {m m' : Memory} {lo : Nat}, Memory.wfFrom lo m = true → Memory.wfFrom lo m' = true →
    (∀ b, b < 65536 → m.lookup b = m'.lookup b) → m = m'
  | [], [], _, _, _, _ => rfl
  | [], (k, v) :: rest, lo, _, h', hl => by
    obtain ⟨_, h2, h3, _⟩ := Memory.wfFrom_cons h'
    have := hl k h2
    simp [Memory.lookup, Config.unlistedByte] at this
    exact absurd this.symm h3
  | (k, v) :: rest, [], lo, h, _, hl => by
    obtain ⟨_, h2, h3, _⟩ := Memory.wfFrom_cons h
    have := hl k h2
    simp [Memory.lookup, Config.unlistedByte] at this
    exact absurd this h3
  | (k, v) :: rest, (k', v') :: rest', lo, h, h', hl => by
    obtain ⟨_, h2, h3, h4⟩ := Memory.wfFrom_cons h
    obtain ⟨_, h2', h3', h4'⟩ := Memory.wfFrom_cons h'
    have hk : k = k' := by
      rcases Nat.lt_trichotomy k k' with hlt | heq | hgt
      · have := hl k h2
        rw [Memory.lookup, if_neg (by omega), if_pos rfl, Memory.lookup, if_neg (by omega), if_neg (by omega)] at this
        exact absurd this h3
      · exact heq
      · have := hl k' h2'
        rw [Memory.lookup, if_neg (by omega), if_neg (by omega), Memory.lookup, if_neg (by omega), if_pos rfl] at this
        exact absurd this.symm h3'
    subst hk
    have hv : v = v' := by simpa [Memory.lookup] using hl k h2
    subst hv
    have hrest : rest = rest' := Memory.eq_of_lookup h4 h4' fun b hb => by
      by_cases hkb : k < b
      · simpa [Memory.lookup, hkb] using hl b hb
      · rw [Memory.lookup_below (by omega) h4, Memory.lookup_below (by omega) h4']
    rw [hrest]

/-- Reading after one write (R36). -/
theorem Memory.read8_write8 {m : Memory} (h : m.wf = true) (addr b : Word) (value : Byte) :
    (m.write8 addr value).read8 b = if b = addr then value else m.read8 b := by
  have := Memory.lookup_update (addr := addr.toNat) value b.toNat h
  rw [Memory.write8, Memory.read8, this, Memory.read8]
  by_cases hb : b = addr
  · rw [if_pos (congrArg _ hb), if_pos hb]
  · rw [if_neg (fun hc => hb (BitVec.eq_of_toNat_eq hc)), if_neg hb]

theorem Memory.wf_write8 {m : Memory} (h : m.wf = true) (addr : Word) (value : Byte) : (m.write8 addr value).wf = true :=
  Memory.wfFrom_update value addr.isLt (Nat.zero_le _) h

theorem Memory.wf_write16 {m : Memory} (h : m.wf = true) (addr value : Word) : (m.write16 addr value).wf = true :=
  Memory.wf_write8 (Memory.wf_write8 h _ _) _ _

theorem Memory.wf_clear (m : Memory) : m.clear.wf = true := rfl

theorem Memory.wf_copyFrom : ∀ (bytes : List Byte) {m : Memory} (addr : Word), m.wf = true → (m.copyFrom addr bytes).wf = true
  | [], _, _, h => h
  | _ :: rest, _, _, h => Memory.wf_copyFrom rest _ (Memory.wf_write8 h _ _)

theorem Memory.read8_clear (m : Memory) (addr : Word) : m.clear.read8 addr = 0#8 := rfl

theorem Memory.read16_toNat (m : Memory) (addr : Word) :
    (m.read16 addr).toNat = (m.read8 addr).toNat + 256 * (m.read8 (addr + 1)).toNat := by
  rw [Memory.read16, join16_toNat]

/-- Reading after the copy of LoadImage, where the image does not wrap (R40). -/
theorem Memory.read8_copyFrom : ∀ (bytes : List Byte) {m : Memory} (addr b : Word), m.wf = true →
    addr.toNat + bytes.length ≤ 65536 →
    (m.copyFrom addr bytes).read8 b =
      if addr.toNat ≤ b.toNat then (bytes[b.toNat - addr.toNat]?).getD (m.read8 b) else m.read8 b
  | [], m, addr, b, _, _ => by simp [Memory.copyFrom]
  | v :: rest, m, addr, b, h, hlen => by
    have hb := b.isLt
    have ha := addr.isLt
    simp only [List.length_cons] at hlen
    rw [Memory.copyFrom]
    by_cases hrest : rest = []
    · subst hrest
      rw [Memory.copyFrom, Memory.read8_write8 h]
      by_cases hab : b = addr
      · subst hab; simp
      · rw [if_neg hab]
        have : b.toNat ≠ addr.toNat := fun hc => hab (BitVec.eq_of_toNat_eq hc)
        split
        case isTrue hle =>
          have : [v][b.toNat - addr.toNat]? = none := List.getElem?_eq_none (by simp; omega)
          rw [this]; rfl
        case isFalse => rfl
    · have hpos : 0 < rest.length := List.length_pos_of_ne_nil hrest
      have hnext : (addr + 1).toNat = addr.toNat + 1 := by
        rw [BitVec.toNat_add]; simp; omega
      rw [Memory.read8_copyFrom rest (addr + 1) b (Memory.wf_write8 h _ _) (by rw [hnext]; omega), hnext,
        Memory.read8_write8 h]
      by_cases hab : b = addr
      · subst hab; simp
      · have hne : b.toNat ≠ addr.toNat := fun hc => hab (BitVec.eq_of_toNat_eq hc)
        rw [if_neg hab]
        by_cases hle : addr.toNat ≤ b.toNat
        · rw [if_pos hle, if_pos (by omega)]
          obtain ⟨d, hd⟩ : ∃ d, b.toNat - addr.toNat = d + 1 := ⟨b.toNat - addr.toNat - 1, by omega⟩
          rw [hd, List.getElem?_cons_succ]
          have : b.toNat - (addr.toNat + 1) = d := by omega
          rw [this]
        · rw [if_neg hle, if_neg (by omega)]

end Sys2Proof.Machine
end

