-- ==== Sys2Proof/Laws/Operands.lean ====
section
/-! SUPPORT. The effective addresses as numbers (spec/40_addressing.md rules R72 to R79). -/

namespace Sys2Proof.Machine

theorem eaZeroPage_toNat (operand : Word) (s : State) : (eaZeroPage operand s).toNat = operand.toNat % 256 := by
  rw [eaZeroPage, inPageZero_toNat]

theorem eaZeroPageX_toNat (operand : Word) (s : State) :
    (eaZeroPageX operand s).toNat = (operand.toNat + s.x.toNat) % 256 := by
  rw [eaZeroPageX, inPageZero_toNat, BitVec.toNat_add, zext16_toNat]; omega

theorem eaZeroPageY_toNat (operand : Word) (s : State) :
    (eaZeroPageY operand s).toNat = (operand.toNat + s.y.toNat) % 256 := by
  rw [eaZeroPageY, inPageZero_toNat, BitVec.toNat_add, zext16_toNat]; omega

theorem eaAbsoluteX_toNat (operand : Word) (s : State) :
    (eaAbsoluteX operand s).toNat = (operand.toNat + s.x.toNat) % 65536 := by
  rw [eaAbsoluteX, BitVec.toNat_add, zext16_toNat]

theorem eaAbsoluteY_toNat (operand : Word) (s : State) :
    (eaAbsoluteY operand s).toNat = (operand.toNat + s.y.toNat) % 65536 := by
  rw [eaAbsoluteY, BitVec.toNat_add, zext16_toNat]

theorem eaIndexedIndirect_toNat (operand : Word) (s : State) :
    (eaIndexedIndirect operand s).toNat =
      (s.mem.lookup ((operand.toNat + s.x.toNat) % 256)).toNat +
        256 * (s.mem.lookup ((operand.toNat + s.x.toNat + 1) % 256)).toNat := by
  have hp : (inPageZero (operand + zext16 s.x)).toNat = (operand.toNat + s.x.toNat) % 256 := eaZeroPageX_toNat operand s
  have hq : (inPageZero (inPageZero (operand + zext16 s.x) + 1)).toNat = (operand.toNat + s.x.toNat + 1) % 256 := by
    rw [inPageZero_toNat, BitVec.toNat_add, hp]; simp
  rw [eaIndexedIndirect, join16_toNat, Memory.read8, Memory.read8, hp, hq]

theorem eaIndirectIndexed_toNat (operand : Word) (s : State) :
    (eaIndirectIndexed operand s).toNat =
      ((s.mem.lookup operand.toNat).toNat + 256 * (s.mem.lookup ((operand.toNat + 1) % 256)).toNat + s.y.toNat) % 65536 := by
  have hq : (inPageZero (operand + 1)).toNat = (operand.toNat + 1) % 256 := by
    rw [inPageZero_toNat, BitVec.toNat_add]; simp
  rw [eaIndirectIndexed, BitVec.toNat_add, join16_toNat, zext16_toNat, Memory.read8, Memory.read8, hq]

end Sys2Proof.Machine
end

