-- ==== Sys2Proof/Laws/Flags.lean ====
section
/-! SUPPORT. The flag accessors, flag by flag (spec/10_state.md rules R18, R19 and R21). -/

namespace Sys2Proof.Machine

/-- Where a flag sits in P (R18). -/
def Flag.position : Flag → Nat
  | .c => 0
  | .z => 1
  | .i => 2
  | .d => 3
  | .b => 4
  | .u => 5
  | .v => 6
  | .n => 7

theorem Flag.position_lt (f : Flag) : f.position < 8 := by cases f <;> decide

theorem Flag.mask_getLsbD (f : Flag) (k : Nat) : f.mask.getLsbD k = decide (k = f.position) := by
  by_cases hk : k < 8
  · interval_cases k <;> cases f <;> rfl
  · have := f.position_lt
    rw [BitVec.getLsbD_of_ge _ _ (by omega), decide_eq_false (by omega)]

theorem Flag.position_injective {f g : Flag} (h : f.position = g.position) : f = g := by
  cases f <;> cases g <;> first | rfl | exact absurd h (by decide)

/-- A flag is its bit of P. -/
theorem getFlag_eq_bit (f : Flag) (s : State) : getFlag f s = s.p.getLsbD f.position := by
  have hiff : (s.p &&& f.mask) = 0#8 ↔ s.p.getLsbD f.position = false := by
    constructor
    · intro h
      have := congrArg (fun v => v.getLsbD f.position) h
      simpa [Flag.mask_getLsbD] using this
    · intro h
      apply BitVec.eq_of_getLsbD_eq
      intro k hk
      rw [BitVec.getLsbD_and, Flag.mask_getLsbD]
      by_cases hkf : k = f.position
      · rw [hkf, h]; simp
      · simp [hkf]
  unfold getFlag
  cases hb : s.p.getLsbD f.position
  · simp [hiff.mpr hb]
  · have : ¬ (s.p &&& f.mask) = 0#8 := fun hc => by rw [hiff.mp hc] at hb; exact Bool.noConfusion hb
    simpa using this

theorem setFlag_bit (f : Flag) (value : Bool) (s : State) (k : Nat) (hk : k < 8) :
    (setFlag f value s).p.getLsbD k = if k = f.position then value else s.p.getLsbD k := by
  cases value
  · rw [setFlag, State.setP_p, if_neg Bool.false_ne_true, BitVec.getLsbD_and, BitVec.getLsbD_not, Flag.mask_getLsbD]
    by_cases h : k = f.position <;> simp [h, hk]
  · rw [setFlag, State.setP_p, if_pos rfl, BitVec.getLsbD_or, Flag.mask_getLsbD]
    by_cases h : k = f.position <;> simp [h]

@[simp] theorem getFlag_setFlag (f g : Flag) (value : Bool) (s : State) :
    getFlag g (setFlag f value s) = if g = f then value else getFlag g s := by
  rw [getFlag_eq_bit, setFlag_bit f value s _ g.position_lt, getFlag_eq_bit]
  by_cases h : g = f
  · subst h; simp
  · rw [if_neg h, if_neg fun hc => h (Flag.position_injective hc)]

@[simp] theorem setFlag_a (f : Flag) (b : Bool) (s : State) : (setFlag f b s).a = s.a := rfl
@[simp] theorem setFlag_x (f : Flag) (b : Bool) (s : State) : (setFlag f b s).x = s.x := rfl
@[simp] theorem setFlag_y (f : Flag) (b : Bool) (s : State) : (setFlag f b s).y = s.y := rfl
@[simp] theorem setFlag_sp (f : Flag) (b : Bool) (s : State) : (setFlag f b s).sp = s.sp := rfl
@[simp] theorem setFlag_pc (f : Flag) (b : Bool) (s : State) : (setFlag f b s).pc = s.pc := rfl
@[simp] theorem setFlag_mem (f : Flag) (b : Bool) (s : State) : (setFlag f b s).mem = s.mem := rfl
@[simp] theorem setFlag_run (f : Flag) (b : Bool) (s : State) : (setFlag f b s).run = s.run := rfl

@[simp] theorem getFlag_setA (f : Flag) (s : State) (v : Byte) : getFlag f (s.setA v) = getFlag f s := rfl
@[simp] theorem getFlag_setX (f : Flag) (s : State) (v : Byte) : getFlag f (s.setX v) = getFlag f s := rfl
@[simp] theorem getFlag_setSp (f : Flag) (s : State) (v : Byte) : getFlag f (s.setSp v) = getFlag f s := rfl
@[simp] theorem getFlag_setPc (f : Flag) (s : State) (v : Word) : getFlag f (s.setPc v) = getFlag f s := rfl
@[simp] theorem getFlag_setMem (f : Flag) (s : State) (m : Memory) : getFlag f (s.setMem m) = getFlag f s := rfl
@[simp] theorem getFlag_setRun (f : Flag) (s : State) (r : RunState) : getFlag f (s.setRun r) = getFlag f s := rfl

/-- Every flag after the Zero/Negative rule (R21). -/
theorem getFlag_setZN (f : Flag) (v : Byte) (s : State) :
    getFlag f (setZN v s) = if f = .n then v.getLsbD 7 else if f = .z then v == 0#8 else getFlag f s := by
  simp [setZN]

@[simp] theorem setZN_a (v : Byte) (s : State) : (setZN v s).a = s.a := rfl
@[simp] theorem setZN_x (v : Byte) (s : State) : (setZN v s).x = s.x := rfl
@[simp] theorem setZN_y (v : Byte) (s : State) : (setZN v s).y = s.y := rfl
@[simp] theorem setZN_sp (v : Byte) (s : State) : (setZN v s).sp = s.sp := rfl
@[simp] theorem setZN_pc (v : Byte) (s : State) : (setZN v s).pc = s.pc := rfl
@[simp] theorem setZN_mem (v : Byte) (s : State) : (setZN v s).mem = s.mem := rfl
@[simp] theorem setZN_run (v : Byte) (s : State) : (setZN v s).run = s.run := rfl

/-- Two status registers with the same flags are the same byte: the eight flags are all of P (R18). -/
theorem p_eq_of_flags {s t : State} (h : ∀ f, getFlag f s = getFlag f t) : s.p = t.p := by
  apply BitVec.eq_of_getLsbD_eq
  have hf : ∀ f : Flag, s.p.getLsbD f.position = t.p.getLsbD f.position := fun f => by
    rw [← getFlag_eq_bit, ← getFlag_eq_bit, h f]
  intro k hk
  interval_cases k
  · exact hf .c
  · exact hf .z
  · exact hf .i
  · exact hf .d
  · exact hf .b
  · exact hf .u
  · exact hf .v
  · exact hf .n

end Sys2Proof.Machine
end

