-- ==== Sys2Proof/Laws/Ops.lean ====
section
/-! SUPPORT. What the shared operations do: fetching, the stack and taking the software interrupt
(spec/41_engine.md rule R82, spec/44_brk_stack.md). -/

namespace Sys2Proof.Machine

/-- The fetch of a Step is the decoder on the bytes at PC: the same instruction, and PC moved past its bytes (R82, R83, R87). -/
theorem fetchInstr_eq_of_decode {s : State} {i : Instr} {rest tail : List Byte}
    (h : decode (s.mem.read8 s.pc :: s.mem.read8 (s.pc + 1) :: tail) = .ok (i, rest)) :
    fetchInstr s = (i, s.setPc (s.pc + BitVec.ofNat 16 (fetchLength i))) := by
  unfold decode at h
  unfold fetchInstr fetchByte
  cases hd : dispatch (s.mem.read8 s.pc) <;> simp only [hd] at h ⊢ <;> cases h <;>
    simp [fetchLength, State.setPc, BitVec.add_assoc]

/-- What a Step can fetch: one of four instructions, PC moved past the bytes fetched, and nothing else changed. -/
theorem fetchInstr_cases (s : State) :
    (s.mem.read8 s.pc = 0x00#8 ∧ fetchInstr s = (.brk, s.setPc (s.pc + 1))) ∨
    (s.mem.read8 s.pc = 0xA9#8 ∧ fetchInstr s = (.ldaImm (s.mem.read8 (s.pc + 1)), s.setPc (s.pc + 2))) ∨
    (s.mem.read8 s.pc = 0xE8#8 ∧ fetchInstr s = (.inx, s.setPc (s.pc + 1))) ∨
    (s.mem.read8 s.pc ≠ 0x00#8 ∧ s.mem.read8 s.pc ≠ 0xA9#8 ∧ s.mem.read8 s.pc ≠ 0xE8#8 ∧
      fetchInstr s = (.unknown (s.mem.read8 s.pc), s.setPc (s.pc + 1))) := by
  unfold fetchInstr fetchByte dispatch
  by_cases h0 : s.mem.read8 s.pc = 0x00#8
  · exact .inl ⟨h0, by simp [h0]⟩
  by_cases hA : s.mem.read8 s.pc = 0xA9#8
  · exact .inr (.inl ⟨hA, by simp [hA, State.setPc, BitVec.add_assoc]⟩)
  by_cases hE : s.mem.read8 s.pc = 0xE8#8
  · exact .inr (.inr (.inl ⟨hE, by simp [hE]⟩))
  · exact .inr (.inr (.inr ⟨h0, hA, hE, by simp [h0, hA, hE]⟩))

@[simp] theorem push_a (v : Byte) (s : State) : (push v s).a = s.a := rfl
@[simp] theorem push_x (v : Byte) (s : State) : (push v s).x = s.x := rfl
@[simp] theorem push_y (v : Byte) (s : State) : (push v s).y = s.y := rfl
@[simp] theorem push_sp (v : Byte) (s : State) : (push v s).sp = s.sp - 1 := rfl
@[simp] theorem push_p (v : Byte) (s : State) : (push v s).p = s.p := rfl
@[simp] theorem push_pc (v : Byte) (s : State) : (push v s).pc = s.pc := rfl
@[simp] theorem push_run (v : Byte) (s : State) : (push v s).run = s.run := rfl
@[simp] theorem push_mem (v : Byte) (s : State) : (push v s).mem = s.mem.write8 (stackAddr s.sp) v := rfl
@[simp] theorem getFlag_push (f : Flag) (v : Byte) (s : State) : getFlag f (push v s) = getFlag f s := rfl

/-- The stack stays in page 1 (R105). -/
theorem stackAddr_toNat (sp : Byte) : (stackAddr sp).toNat = 256 + sp.toNat := by
  have := sp.isLt
  simp only [stackAddr, Config.stackPage, BitVec.toNat_add, zext16_toNat]
  simp; omega

theorem stackAddr_injective {sp sp' : Byte} (h : stackAddr sp = stackAddr sp') : sp = sp' := by
  have := congrArg BitVec.toNat h
  rw [stackAddr_toNat, stackAddr_toNat] at this
  exact BitVec.eq_of_toNat_eq (by omega)

theorem stackAddr_ne_of_page (sp : Byte) {addr : Word} (h : addr.toNat < 256 ∨ 512 ≤ addr.toNat) : addr ≠ stackAddr sp := by
  intro hc
  have := stackAddr_toNat sp
  have := sp.isLt
  rw [← hc] at *
  omega

@[simp] theorem pushPc_a (s : State) : (pushPc s).a = s.a := rfl
@[simp] theorem pushPc_x (s : State) : (pushPc s).x = s.x := rfl
@[simp] theorem pushPc_y (s : State) : (pushPc s).y = s.y := rfl
@[simp] theorem pushPc_sp (s : State) : (pushPc s).sp = s.sp - 1 - 1 := rfl
@[simp] theorem pushPc_p (s : State) : (pushPc s).p = s.p := rfl
@[simp] theorem pushPc_pc (s : State) : (pushPc s).pc = s.pc := rfl
@[simp] theorem pushPc_mem (s : State) :
    (pushPc s).mem = (s.mem.write8 (stackAddr s.sp) (hi8 s.pc)).write8 (stackAddr (s.sp - 1)) (lo8 s.pc) := rfl
@[simp] theorem pushPc_run (s : State) : (pushPc s).run = s.run := rfl
@[simp] theorem getFlag_pushPc (f : Flag) (s : State) : getFlag f (pushPc s) = getFlag f s := rfl

@[simp] theorem pushStatus_a (s : State) : (pushStatus s).a = s.a := rfl
@[simp] theorem pushStatus_x (s : State) : (pushStatus s).x = s.x := rfl
@[simp] theorem pushStatus_y (s : State) : (pushStatus s).y = s.y := rfl
@[simp] theorem pushStatus_sp (s : State) : (pushStatus s).sp = s.sp - 1 := rfl
@[simp] theorem pushStatus_p (s : State) : (pushStatus s).p = s.p := rfl
@[simp] theorem pushStatus_pc (s : State) : (pushStatus s).pc = s.pc := rfl
@[simp] theorem pushStatus_mem (s : State) :
    (pushStatus s).mem = s.mem.write8 (stackAddr s.sp) (s.p ||| Config.brkPushedBits) := rfl
@[simp] theorem pushStatus_run (s : State) : (pushStatus s).run = s.run := rfl
@[simp] theorem getFlag_pushStatus (f : Flag) (s : State) : getFlag f (pushStatus s) = getFlag f s := rfl

@[simp] theorem advancePastPadding_a (s : State) : (advancePastPadding s).a = s.a := rfl
@[simp] theorem advancePastPadding_x (s : State) : (advancePastPadding s).x = s.x := rfl
@[simp] theorem advancePastPadding_y (s : State) : (advancePastPadding s).y = s.y := rfl
@[simp] theorem advancePastPadding_sp (s : State) : (advancePastPadding s).sp = s.sp := rfl
@[simp] theorem advancePastPadding_p (s : State) : (advancePastPadding s).p = s.p := rfl
@[simp] theorem advancePastPadding_pc (s : State) : (advancePastPadding s).pc = s.pc + 2 := rfl
@[simp] theorem advancePastPadding_mem (s : State) : (advancePastPadding s).mem = s.mem := rfl
@[simp] theorem advancePastPadding_run (s : State) : (advancePastPadding s).run = s.run := rfl
@[simp] theorem getFlag_advancePastPadding (f : Flag) (s : State) : getFlag f (advancePastPadding s) = getFlag f s := rfl

@[simp] theorem loadPcFrom_a (w : Word) (s : State) : (loadPcFrom w s).a = s.a := rfl
@[simp] theorem loadPcFrom_x (w : Word) (s : State) : (loadPcFrom w s).x = s.x := rfl
@[simp] theorem loadPcFrom_y (w : Word) (s : State) : (loadPcFrom w s).y = s.y := rfl
@[simp] theorem loadPcFrom_sp (w : Word) (s : State) : (loadPcFrom w s).sp = s.sp := rfl
@[simp] theorem loadPcFrom_p (w : Word) (s : State) : (loadPcFrom w s).p = s.p := rfl
@[simp] theorem loadPcFrom_pc (w : Word) (s : State) : (loadPcFrom w s).pc = s.mem.read16 w := rfl
@[simp] theorem loadPcFrom_mem (w : Word) (s : State) : (loadPcFrom w s).mem = s.mem := rfl
@[simp] theorem loadPcFrom_run (w : Word) (s : State) : (loadPcFrom w s).run = s.run := rfl
@[simp] theorem getFlag_loadPcFrom (f : Flag) (w : Word) (s : State) : getFlag f (loadPcFrom w s) = getFlag f s := rfl

@[simp] theorem takeInterrupt_a (s : State) : (takeInterrupt s).a = s.a := by simp [takeInterrupt]
@[simp] theorem takeInterrupt_x (s : State) : (takeInterrupt s).x = s.x := by simp [takeInterrupt]
@[simp] theorem takeInterrupt_y (s : State) : (takeInterrupt s).y = s.y := by simp [takeInterrupt]
@[simp] theorem takeInterrupt_run (s : State) : (takeInterrupt s).run = s.run := by simp [takeInterrupt]

/-- Three bytes are pushed (R106). -/
@[simp] theorem takeInterrupt_sp (s : State) : (takeInterrupt s).sp = s.sp - 3 := by
  simp only [takeInterrupt, loadPcFrom_sp, pushStatus_sp, setFlag_sp, pushPc_sp, advancePastPadding_sp]
  bv_omega

/-- B and I are set, and no other flag changes (R106). -/
theorem getFlag_takeInterrupt (f : Flag) (s : State) :
    getFlag f (takeInterrupt s) = (decide (f = .i) || decide (f = .b) || getFlag f s) := by
  by_cases hi : f = .i <;> by_cases hb : f = .b <;> simp [takeInterrupt, hi, hb]

/-- The memory after the three pushes (R106). -/
theorem takeInterrupt_mem (s : State) : (takeInterrupt s).mem =
    ((s.mem.write8 (stackAddr s.sp) (hi8 (s.pc + 2))).write8 (stackAddr (s.sp - 1)) (lo8 (s.pc + 2))).write8
      (stackAddr (s.sp - 2)) ((takeInterrupt s).p ||| Config.brkPushedBits) := by
  have hsp : s.sp - 1 - 1 = s.sp - 2 := by bv_omega
  simp only [takeInterrupt, loadPcFrom_mem, loadPcFrom_p, pushStatus_mem, pushStatus_p, setFlag_mem, setFlag_sp, pushPc_mem,
    pushPc_sp, advancePastPadding_mem, advancePastPadding_sp, advancePastPadding_pc, hsp]

/-- The three bytes on the stack and every other byte of memory (R106 to R108). -/
theorem takeInterrupt_read8 {s : State} (h : s.mem.wf = true) (addr : Word) :
    (takeInterrupt s).mem.read8 addr =
      if addr = stackAddr (s.sp - 2) then (takeInterrupt s).p ||| Config.brkPushedBits
      else if addr = stackAddr (s.sp - 1) then lo8 (s.pc + 2)
      else if addr = stackAddr s.sp then hi8 (s.pc + 2)
      else s.mem.read8 addr := by
  rw [takeInterrupt_mem, Memory.read8_write8 (Memory.wf_write8 (Memory.wf_write8 h _ _) _ _),
    Memory.read8_write8 (Memory.wf_write8 h _ _), Memory.read8_write8 h]

theorem takeInterrupt_wf {s : State} (h : s.mem.wf = true) : (takeInterrupt s).mem.wf = true := by
  rw [takeInterrupt_mem]
  exact Memory.wf_write8 (Memory.wf_write8 (Memory.wf_write8 h _ _) _ _) _ _

/-- PC comes from the interrupt vector, which the pushes cannot change (R110). -/
theorem takeInterrupt_pc {s : State} (h : s.mem.wf = true) :
    (takeInterrupt s).pc = s.mem.read16 Config.interruptVector := by
  have hpc : (takeInterrupt s).pc = (takeInterrupt s).mem.read16 Config.interruptVector := by
    simp only [takeInterrupt, loadPcFrom_pc, loadPcFrom_mem]
  have hread : ∀ addr : Word, 512 ≤ addr.toNat → (takeInterrupt s).mem.read8 addr = s.mem.read8 addr := fun addr ha => by
    rw [takeInterrupt_read8 h, if_neg (stackAddr_ne_of_page _ (.inr ha)), if_neg (stackAddr_ne_of_page _ (.inr ha)),
      if_neg (stackAddr_ne_of_page _ (.inr ha))]
  rw [hpc, Memory.read16, Memory.read16, hread _ (by decide), hread _ (by decide)]

/-- Reading back what was pushed restores SP (R103, R104). -/
theorem pop_push {s : State} (h : s.mem.wf = true) (v : Byte) :
    pop (push v s) = (v, s.setMem (s.mem.write8 (stackAddr s.sp) v)) := by
  simp [pop, push, State.setSp, State.setMem, Memory.read8_write8 h]

end Sys2Proof.Machine
end

