-- ==== Sys2Proof/Laws/Exec.lean ====
section
/-! SUPPORT. One spec lemma for each meaning: the next state it answers, and from these, what any instruction can do. -/

namespace Sys2Proof.Machine

/-- The state after a load of `v`. -/
def loaded (v : Byte) (s : State) : State := setZN v (s.setA v)

theorem ldaHandler_immediate (operand : Word) (s : State) :
    ldaHandler operand .immediate s = .ok (loaded (lo8 operand) s) := rfl

/-- LDA in a memory mode loads the byte at the address of the address path (R69, R93). -/
theorem ldaHandler_of_address {operand ea : Word} {mode : Mode} {s : State} (hm : mode ≠ .immediate)
    (h : resolveAddress .lda operand mode s = .ok ea) : ldaHandler operand mode s = .ok (loaded (s.mem.read8 ea) s) := by
  rw [ldaHandler, resolveValue, if_neg hm, h]; rfl

/-- LDA accepts all nine modes (R80, R93). -/
theorem ldaHandler_ok (operand : Word) (mode : Mode) (s : State) : ∃ v, ldaHandler operand mode s = .ok (loaded v s) := by
  cases mode <;> exact ⟨_, rfl⟩

/-- STA either stores A at the address of the address path or raises its fault (R96). -/
theorem staHandler_cases (operand : Word) (mode : Mode) (s : State) :
    (staAccepts mode = true ∧ ∃ ea, resolveAddress .sta operand mode s = .ok ea ∧
      staHandler operand mode s = .ok (s.setMem (s.mem.write8 ea s.a))) ∨
    (staAccepts mode = false ∧ staHandler operand mode s = .error (.invalidAddressingMode .sta mode)) := by
  cases mode <;> first | exact .inr ⟨rfl, rfl⟩ | exact .inl ⟨rfl, _, rfl, rfl⟩

theorem exec_ldaImm (imm : Byte) (s : State) : exec (.ldaImm imm) s = .next (loaded imm s) := by
  show Host.Outcome.next (loaded (lo8 (zext16 imm)) s) = _
  rw [lo8_zext16]

theorem exec_ldaZeroPage (operand : Word) (s : State) :
    exec (.ldaZeroPage operand) s = .next (loaded (s.mem.read8 (eaZeroPage operand s)) s) := rfl
theorem exec_ldaZeroPageX (operand : Word) (s : State) :
    exec (.ldaZeroPageX operand) s = .next (loaded (s.mem.read8 (eaZeroPageX operand s)) s) := rfl
theorem exec_ldaZeroPageY (operand : Word) (s : State) :
    exec (.ldaZeroPageY operand) s = .next (loaded (s.mem.read8 (eaZeroPageY operand s)) s) := rfl
theorem exec_ldaAbsolute (operand : Word) (s : State) :
    exec (.ldaAbsolute operand) s = .next (loaded (s.mem.read8 (eaAbsolute operand s)) s) := rfl
theorem exec_ldaAbsoluteX (operand : Word) (s : State) :
    exec (.ldaAbsoluteX operand) s = .next (loaded (s.mem.read8 (eaAbsoluteX operand s)) s) := rfl
theorem exec_ldaAbsoluteY (operand : Word) (s : State) :
    exec (.ldaAbsoluteY operand) s = .next (loaded (s.mem.read8 (eaAbsoluteY operand s)) s) := rfl
theorem exec_ldaIndexedIndirect (operand : Word) (s : State) :
    exec (.ldaIndexedIndirect operand) s = .next (loaded (s.mem.read8 (eaIndexedIndirect operand s)) s) := rfl
theorem exec_ldaIndirectIndexed (operand : Word) (s : State) :
    exec (.ldaIndirectIndexed operand) s = .next (loaded (s.mem.read8 (eaIndirectIndexed operand s)) s) := rfl
theorem exec_staZeroPage (operand : Word) (s : State) :
    exec (.staZeroPage operand) s = .next (s.setMem (s.mem.write8 (eaZeroPage operand s) s.a)) := rfl
theorem exec_staAbsolute (operand : Word) (s : State) :
    exec (.staAbsolute operand) s = .next (s.setMem (s.mem.write8 (eaAbsolute operand s) s.a)) := rfl
theorem exec_staAbsoluteX (operand : Word) (s : State) :
    exec (.staAbsoluteX operand) s = .next (s.setMem (s.mem.write8 (eaAbsoluteX operand s) s.a)) := rfl
theorem exec_staAbsoluteY (operand : Word) (s : State) :
    exec (.staAbsoluteY operand) s = .next (s.setMem (s.mem.write8 (eaAbsoluteY operand s) s.a)) := rfl
theorem exec_tax (s : State) : exec .tax s = .next (setZN s.a (s.setX s.a)) := rfl
theorem exec_inx (s : State) : exec .inx s = .next (setZN (s.x + 1) (s.setX (s.x + 1))) := rfl
theorem brkHandler_false (s : State) : brkHandler false s = (takeInterrupt s).setRun .halted := rfl
theorem brkHandler_true (s : State) : brkHandler true s = (takeInterrupt s).setRun s.run := by
  rw [← takeInterrupt_run s]; rfl
theorem exec_brk (s : State) : exec .brk s = .next ((takeInterrupt s).setRun .halted) := by
  rw [← brkHandler_false]; rfl
theorem execWith_brk_false (s : State) : execWith false .brk s = .next ((takeInterrupt s).setRun .halted) := by
  rw [execWith, if_pos rfl, brkHandler_false]
theorem execWith_brk_true (s : State) : execWith true .brk s = .next ((takeInterrupt s).setRun s.run) := by
  rw [execWith, if_pos rfl, brkHandler_true]
theorem exec_unknown (opcode : Byte) (s : State) :
    exec (.unknown opcode) s = .next (s.setRun (.faulted (.unknownOpcode opcode (s.pc - 1)))) := rfl

/-- Everything an instruction can do: one of six things (R23). -/
inductive Effect (s : State) : Instr → State → Prop where
  | load (i : Instr) (v : Byte) : Effect s i (loaded v s)
  | store (i : Instr) (ea : Word) : Effect s i (s.setMem (s.mem.write8 ea s.a))
  | transfer : Effect s .tax (setZN s.a (s.setX s.a))
  | increment : Effect s .inx (setZN (s.x + 1) (s.setX (s.x + 1)))
  | interrupt (r : RunState) : r = .halted ∨ r = s.run → Effect s .brk ((takeInterrupt s).setRun r)
  | unknown (opcode : Byte) (pc : Word) :
      Effect s (.unknown opcode) (s.setRun (.faulted (.unknownOpcode opcode pc)))

/-- The inversion lemma of `execWith`: it always answers a next state, by one of the six effects. -/
theorem execWith_effect (resumes : Bool) (i : Instr) (s : State) : ∃ t, execWith resumes i s = .next t ∧ Effect s i t := by
  cases i
  case ldaImm imm => exact ⟨_, exec_ldaImm imm s, .load _ _⟩
  case inx => exact ⟨_, rfl, .increment⟩
  case brk =>
    cases resumes
    · exact ⟨_, execWith_brk_false s, .interrupt _ (.inl rfl)⟩
    · exact ⟨_, execWith_brk_true s, .interrupt _ (.inr rfl)⟩
  case ldaZeroPage op => exact ⟨_, rfl, .load _ _⟩
  case ldaZeroPageX op => exact ⟨_, rfl, .load _ _⟩
  case ldaZeroPageY op => exact ⟨_, rfl, .load _ _⟩
  case ldaAbsolute op => exact ⟨_, rfl, .load _ _⟩
  case ldaAbsoluteX op => exact ⟨_, rfl, .load _ _⟩
  case ldaAbsoluteY op => exact ⟨_, rfl, .load _ _⟩
  case ldaIndexedIndirect op => exact ⟨_, rfl, .load _ _⟩
  case ldaIndirectIndexed op => exact ⟨_, rfl, .load _ _⟩
  case staZeroPage op => exact ⟨_, rfl, .store _ _⟩
  case staAbsolute op => exact ⟨_, rfl, .store _ _⟩
  case staAbsoluteX op => exact ⟨_, rfl, .store _ _⟩
  case staAbsoluteY op => exact ⟨_, rfl, .store _ _⟩
  case tax => exact ⟨_, rfl, .transfer⟩
  case unknown opcode => exact ⟨_, rfl, .unknown _ _⟩

/-- `exec` is `execWith` at the default of `BRK_RESUMES` (R6). -/
theorem exec_eq_execWith (i : Instr) (s : State) : exec i s = execWith Config.brkResumes i s := by
  unfold execWith
  split
  case isTrue h => subst h; rfl
  case isFalse => rfl

theorem exec_effect (i : Instr) (s : State) : ∃ t, exec i s = .next t ∧ Effect s i t := by
  rw [exec_eq_execWith]; exact execWith_effect _ i s

theorem Effect.y {s t : State} {i : Instr} (h : Effect s i t) : t.y = s.y := by
  cases h <;> simp [loaded]

theorem Effect.wf {s t : State} {i : Instr} (h : Effect s i t) (hw : s.mem.wf = true) : t.mem.wf = true := by
  cases h with
  | load v => simpa [loaded] using hw
  | store ea => exact Memory.wf_write8 hw _ _
  | transfer => simpa using hw
  | increment => simpa using hw
  | interrupt r _ => simpa using takeInterrupt_wf hw
  | unknown opcode pc => exact hw

/-- C, D, U and V are written by no instruction, and I is never cleared (R24, R28). -/
theorem Effect.status {s t : State} {i : Instr} (h : Effect s i t) {f : Flag} (hf : f ≠ .z ∧ f ≠ .n ∧ f ≠ .i ∧ f ≠ .b) :
    getFlag f t = getFlag f s := by
  obtain ⟨hz, hn, hi, hb⟩ := hf
  cases h <;> simp [loaded, getFlag_setZN, getFlag_takeInterrupt, hz, hn, hi, hb]

theorem Effect.i {s t : State} {i : Instr} (h : Effect s i t) (hi : getFlag .i s = true) : getFlag .i t = true := by
  cases h <;> simp [loaded, getFlag_setZN, getFlag_takeInterrupt, hi]

end Sys2Proof.Machine
end

