-- ==== Sys2Proof/Laws/Step.lean ====
section
/-! SUPPORT. What one Step, one Execute and one host operation can do, said once for the invariants and the frames. -/

namespace Sys2Proof.Machine

/-- `step` is `stepWith` at the default of `BRK_RESUMES` (R6). -/
theorem step_eq_stepWith (s : State) : step s = stepWith Config.brkResumes s := by
  cases h : s.run <;> simp [step, stepWith, h, exec_eq_execWith]

theorem step_of_running {s : State} (h : s.run = .running) : step s = exec (fetchInstr s).1 (fetchInstr s).2 := by
  simp [step, h]

theorem stepWith_of_running {s : State} (resumes : Bool) (h : s.run = .running) :
    stepWith resumes s = execWith resumes (fetchInstr s).1 (fetchInstr s).2 := by
  simp [stepWith, h]

theorem stepWith_of_stopped {s : State} (resumes : Bool) (h : s.run ≠ .running) : stepWith resumes s = .next s := by
  unfold stepWith; split
  case h_1 hr => exact absurd hr h
  case h_2 => rfl
  case h_3 => rfl

theorem executeWith_of_running {s : State} (resumes : Bool) (c : HandlerCall) (h : s.run = .running) :
    executeWith resumes c s = settle s (callHandler resumes c s) := by
  simp [executeWith, h]

theorem executeWith_of_stopped {s : State} (resumes : Bool) (c : HandlerCall) (h : s.run ≠ .running) :
    executeWith resumes c s = .next s := by
  unfold executeWith; split
  case h_1 hr => exact absurd hr h
  case h_2 => rfl
  case h_3 => rfl

/-- What an engine operation can do: nothing, one instruction's effect on a state that differs at most in PC, or the fault of an
unaccepted mode. -/
inductive EngineMove (s : State) : State → Prop where
  | stay : EngineMove s s
  | effect (i : Instr) (pc : Word) (t : State) : s.run = .running → (∀ o, i = .unknown o → dispatch o = .unknown) →
      Effect (s.setPc pc) i t → EngineMove s t
  | rejected (mode : Mode) : s.run = .running → staAccepts mode = false →
      EngineMove s (s.setRun (.faulted (.invalidAddressingMode .sta mode)))

theorem fetchInstr_state (s : State) : ∃ pc, (fetchInstr s).2 = s.setPc pc := by
  rcases fetchInstr_cases s with ⟨_, h⟩ | ⟨_, h⟩ | ⟨_, h⟩ | ⟨_, _, _, h⟩ <;> exact ⟨_, congrArg Prod.snd h⟩

theorem dispatch_unknown {b : Byte} (h0 : b ≠ 0x00#8) (hA : b ≠ 0xA9#8) (hE : b ≠ 0xE8#8) : dispatch b = .unknown := by
  rw [dispatch, if_neg h0, if_neg hA, if_neg hE]

theorem fetchInstr_unknown {s : State} {o : Byte} (h : (fetchInstr s).1 = .unknown o) : dispatch o = .unknown := by
  rcases fetchInstr_cases s with ⟨_, hf⟩ | ⟨_, hf⟩ | ⟨_, hf⟩ | ⟨h0, hA, hE, hf⟩ <;> rw [hf] at h <;> cases h
  exact dispatch_unknown h0 hA hE

/-- The inversion lemma of a Step. -/
theorem stepWith_move (resumes : Bool) (s : State) : ∃ t, stepWith resumes s = .next t ∧ EngineMove s t := by
  by_cases hr : s.run = .running
  · obtain ⟨pc, hpc⟩ := fetchInstr_state s
    obtain ⟨t, ht, he⟩ := execWith_effect resumes (fetchInstr s).1 (fetchInstr s).2
    refine ⟨t, by rw [stepWith_of_running resumes hr, ht], ?_⟩
    rw [hpc] at he
    exact .effect _ pc t hr (fun o ho => fetchInstr_unknown ho) he
  · exact ⟨s, stepWith_of_stopped resumes hr, .stay⟩

theorem brkHandler_effect (resumes : Bool) (s : State) : Effect s .brk (brkHandler resumes s) := by
  cases resumes
  · rw [brkHandler_false]; exact .interrupt _ (.inl rfl)
  · rw [brkHandler_true]; exact .interrupt _ (.inr rfl)

/-- What a handler that Execute calls can do. -/
theorem callHandler_cases (resumes : Bool) (c : HandlerCall) (s : State) :
    (∃ i t, callHandler resumes c s = .ok t ∧ (∀ o, i ≠ .unknown o) ∧ (i = .brk → c = .brk) ∧ Effect s i t) ∨
    (∃ operand mode, c = .sta operand mode ∧ staAccepts mode = false ∧
      callHandler resumes c s = .error (.invalidAddressingMode .sta mode)) := by
  cases c with
  | lda operand mode =>
    obtain ⟨v, hv⟩ := ldaHandler_ok operand mode s
    exact .inl ⟨.ldaImm v, _, hv, nofun, nofun, .load _ v⟩
  | sta operand mode =>
    rcases staHandler_cases operand mode s with ⟨_, ea, _, h⟩ | ⟨hm, h⟩
    · exact .inl ⟨.staZeroPage operand, _, h, nofun, nofun, .store _ ea⟩
    · exact .inr ⟨operand, mode, rfl, hm, h⟩
  | tax => exact .inl ⟨.tax, _, rfl, nofun, nofun, .transfer⟩
  | inx => exact .inl ⟨.inx, _, rfl, nofun, nofun, .increment⟩
  | brk => exact .inl ⟨.brk, _, rfl, nofun, fun _ => rfl, brkHandler_effect resumes s⟩

/-- The inversion lemma of an Execute. -/
theorem executeWith_move (resumes : Bool) (c : HandlerCall) (s : State) :
    ∃ t, executeWith resumes c s = .next t ∧ EngineMove s t := by
  by_cases hr : s.run = .running
  · rw [executeWith_of_running resumes c hr]
    rcases callHandler_cases resumes c s with ⟨i, t, h, hu, _, he⟩ | ⟨_, mode, _, hm, h⟩ <;> rw [h]
    · exact ⟨t, rfl, .effect i s.pc t hr (fun o ho => absurd ho (hu o)) he⟩
    · exact ⟨_, rfl, .rejected mode hr hm⟩
  · exact ⟨s, executeWith_of_stopped resumes c hr, .stay⟩

theorem loadImage_cases (bytes : List Byte) (origin : Word) (s : State) :
    (origin.toNat + bytes.length ≤ 65536 ∧ loadImage bytes origin s = .next (s.setMem (s.mem.copyFrom origin bytes))) ∨
    (65536 < origin.toNat + bytes.length ∧ loadImage bytes origin s = .fault (.imageOutOfRange origin bytes.length)) := by
  unfold loadImage
  split
  case isTrue h => exact .inr ⟨h, rfl⟩
  case isFalse h => exact .inl ⟨Nat.le_of_not_lt h, rfl⟩

theorem loadProgram_cases (bytes : List Byte) (s : State) :
    (bytes.length ≤ 32768 ∧ loadProgram bytes s =
      .next (s.setMem ((s.mem.copyFrom Config.programOrigin bytes).write16 Config.resetVector Config.programOrigin))) ∨
    (32768 < bytes.length ∧ loadProgram bytes s = .fault (.imageOutOfRange Config.programOrigin bytes.length)) := by
  have ho : Config.programOrigin.toNat = 32768 := by decide
  unfold loadProgram
  rcases loadImage_cases bytes Config.programOrigin s with ⟨h, he⟩ | ⟨h, he⟩ <;> rw [he]
  · exact .inl ⟨by omega, rfl⟩
  · exact .inr ⟨by omega, rfl⟩

/-- The inversion lemma of a host operation: an engine move, a reset over a memory, or a change of memory alone. -/
inductive HostMove (s : State) : State → Prop where
  | engine (t : State) : EngineMove s t → HostMove s t
  | reset (m : Memory) : (s.mem.wf = true → m.wf = true) → HostMove s (resetCore (s.setMem m))
  | memory (m : Memory) : (s.mem.wf = true → m.wf = true) → HostMove s (s.setMem m)

theorem afterHostOp_move (resumes : Bool) (op : HostOp) (s : State) : HostMove s (afterHostOp resumes op s) := by
  unfold afterHostOp hostOp
  cases op with
  | powerOn => exact .reset _ fun _ => Memory.wf_clear s.mem
  | reset => exact .reset s.mem id
  | loadImage bytes origin =>
    rcases loadImage_cases bytes origin s with ⟨_, h⟩ | ⟨_, h⟩ <;> simp only [h]
    · exact .memory _ fun hw => Memory.wf_copyFrom _ _ hw
    · exact .engine _ .stay
  | loadProgram bytes =>
    rcases loadProgram_cases bytes s with ⟨_, h⟩ | ⟨_, h⟩ <;> simp only [h]
    · exact .memory _ fun hw => Memory.wf_write16 (Memory.wf_copyFrom _ _ hw) _ _
    · exact .engine _ .stay
  | step =>
    obtain ⟨t, h, hm⟩ := stepWith_move resumes s
    simp only [h]; exact .engine _ hm
  | execute c =>
    obtain ⟨t, h, hm⟩ := executeWith_move resumes c s
    simp only [h]; exact .engine _ hm

/-- A property that holds at power-on and that every host operation keeps holds after every sequence of them. -/
theorem afterHostOps_induction {P : State → Prop} (resumes : Bool)
    (hstep : ∀ op s, P s → P (afterHostOp resumes op s)) : ∀ (ops : List HostOp) {s : State}, P s →
    P (afterHostOps resumes ops s)
  | [], _, h => h
  | op :: rest, _, h => afterHostOps_induction resumes hstep rest (hstep op _ h)

end Sys2Proof.Machine
end

