-- ==== Sys2Proof/Laws/Frames.lean ====
section
/-! SUPPORT. The frames of the effects in the terms of Safety.lean: a load, a move into X, a store, and the software interrupt. -/

namespace Sys2Proof.Machine

theorem toNat_add_one (w : Word) : (w + 1).toNat = (w.toNat + 1) % 65536 := by rw [BitVec.toNat_add]; rfl

theorem toNat_add_two (w : Word) : (w + 2).toNat = (w.toNat + 2) % 65536 := by rw [BitVec.toNat_add]; rfl

/-- Reading at a word is reading at its number. -/
theorem read8_eq_byteAt {s : State} {w : Word} {n : Nat} (h : w.toNat = n) : s.mem.read8 w = byteAt s n := by
  subst h; simp [byteAt]

theorem lookup_eq_byteAt (s : State) {n : Nat} (h : n < 65536) : s.mem.lookup n = byteAt s n := by
  simp [byteAt, Memory.read8, Nat.mod_eq_of_lt h]

theorem eaIndexedIndirect_eq_pairAt (operand : Word) (s : State) :
    (eaIndexedIndirect operand s).toNat =
      pairAt (byteAt s ((operand.toNat + s.x.toNat) % 256)) (byteAt s ((operand.toNat + s.x.toNat + 1) % 256)) := by
  rw [eaIndexedIndirect_toNat, lookup_eq_byteAt s (by omega), lookup_eq_byteAt s (by omega)]; rfl

theorem eaIndirectIndexed_eq_pairAt (operand : Word) (s : State) :
    (eaIndirectIndexed operand s).toNat =
      (pairAt (byteAt s operand.toNat) (byteAt s ((operand.toNat + 1) % 256)) + s.y.toNat) % 65536 := by
  rw [eaIndirectIndexed_toNat, lookup_eq_byteAt s operand.isLt, lookup_eq_byteAt s (by omega)]; rfl

/-- The Zero/Negative rule in numbers (R21). -/
theorem znShow_setZN (v : Byte) (s : State) : ZNShow v (setZN v s) := by
  constructor
  · rw [getFlag_setZN, if_neg (by decide), if_pos rfl]
    by_cases h : v = 0#8
    · subst h; rfl
    · have : v.toNat ≠ 0 := fun hc => h (BitVec.eq_of_toNat_eq hc)
      simp [h, this]
  · have h : v.getLsbD 7 = v.msb := by simp [BitVec.msb_eq_getLsbD_last]
    rw [getFlag_setZN, if_pos rfl, h, BitVec.msb_eq_decide]

theorem flagsKept_setZN (v : Byte) (s : State) : FlagsKept [.z, .n] s (setZN v s) := fun f hf => by
  simp only [List.mem_cons, List.not_mem_nil, or_false, not_or] at hf
  simp [getFlag_setZN, hf]

theorem loadedInto_loaded (v : Byte) (s : State) : LoadedInto v s (loaded v s) :=
  ⟨rfl, znShow_setZN _ _, flagsKept_setZN v (s.setA v), rfl, rfl, rfl, rfl, rfl, fun _ _ => rfl⟩

theorem loadedInto_byteAt {s : State} {w : Word} {n : Nat} (h : w.toNat = n) :
    LoadedInto (byteAt s n) s (loaded (s.mem.read8 w) s) := by
  rw [read8_eq_byteAt h]; exact loadedInto_loaded _ _

theorem putInX_setZN (v : Byte) (s : State) : PutInX v s (setZN v (s.setX v)) :=
  ⟨rfl, znShow_setZN _ _, flagsKept_setZN v (s.setX v), rfl, rfl, rfl, rfl, rfl, fun _ _ => rfl⟩

theorem storedAt_write8 {s : State} (h : s.mem.wf = true) (ea : Word) :
    StoredAt ea s (s.setMem (s.mem.write8 ea s.a)) :=
  ⟨by rw [State.setMem_mem, Memory.read8_write8 h, if_pos rfl], fun b hb => by
    rw [State.setMem_mem, Memory.read8_write8 h, if_neg (by simpa using hb)], rfl, rfl, rfl, rfl, rfl, rfl, rfl⟩

/-- Taking the software interrupt, in full (R106). -/
theorem interruptTaken_takeInterrupt (r : RunState) {s : State} (h : s.mem.wf = true) :
    InterruptTaken r s ((takeInterrupt s).setRun r) := by
  have h02 : stackAddr s.sp ≠ stackAddr (s.sp - 2) := fun hc => by have := stackAddr_injective hc; bv_omega
  have h01 : stackAddr s.sp ≠ stackAddr (s.sp - 1) := fun hc => by have := stackAddr_injective hc; bv_omega
  have h12 : stackAddr (s.sp - 1) ≠ stackAddr (s.sp - 2) := fun hc => by have := stackAddr_injective hc; bv_omega
  refine ⟨?_, ?_, ?_, fun addr ha => ?_, ?_, ?_, fun f hf => ?_, ?_, ?_, ?_, ?_, ?_, rfl⟩
  · rw [State.setRun_mem, takeInterrupt_read8 h, if_neg h02, if_neg h01, if_pos rfl]
    apply BitVec.eq_of_toNat_eq; rw [hi8_toNat, toNat_add_two, BitVec.toNat_ofNat]; omega
  · rw [State.setRun_mem, takeInterrupt_read8 h, if_neg h12, if_pos rfl]
    apply BitVec.eq_of_toNat_eq; rw [lo8_toNat, toNat_add_two, BitVec.toNat_ofNat]; omega
  · rw [State.setRun_mem, takeInterrupt_read8 h, if_pos rfl]; rfl
  · simp only [List.mem_cons, List.not_mem_nil, or_false, not_or] at ha
    rw [State.setRun_mem, takeInterrupt_read8 h, if_neg ha.2.2, if_neg ha.2.1, if_neg ha.1]
  · rw [getFlag_setRun, getFlag_takeInterrupt]; rfl
  · rw [getFlag_setRun, getFlag_takeInterrupt]; rfl
  · simp only [List.mem_cons, List.not_mem_nil, or_false, not_or] at hf
    rw [getFlag_setRun, getFlag_takeInterrupt]; simp [hf]
  · rw [State.setRun_pc, takeInterrupt_pc h]; exact Memory.read16_toNat _ _
  · rw [State.setRun_sp, takeInterrupt_sp]
  · rw [State.setRun_a, takeInterrupt_a]
  · rw [State.setRun_x, takeInterrupt_x]
  · rw [State.setRun_y, takeInterrupt_y]

/-- The status after the software interrupt, as a byte (R18, R106). -/
theorem takeInterrupt_p (s : State) : (takeInterrupt s).p = s.p ||| 0x14#8 := by
  have h : (takeInterrupt s).p = (s.p ||| 0x10#8) ||| 0x04#8 := by simp [takeInterrupt, setFlag, Flag.mask]
  rw [h, BitVec.or_assoc]; rfl

theorem brkHandler_mem (resumes : Bool) (s : State) : (brkHandler resumes s).mem = (takeInterrupt s).mem := by
  cases resumes
  · rw [brkHandler_false, State.setRun_mem]
  · rw [brkHandler_true, State.setRun_mem]

theorem brkHandler_p (resumes : Bool) (s : State) : (brkHandler resumes s).p = (takeInterrupt s).p := by
  cases resumes
  · rw [brkHandler_false, State.setRun_p]
  · rw [brkHandler_true, State.setRun_p]

end Sys2Proof.Machine
end

