-- ==== Sys2Proof/Laws/Invariants.lean ====
section
/-! SUPPORT. What each effect and each move keeps, and the host's run of the core step by step. -/

namespace Sys2Proof.Machine

theorem exec_inversion {i : Instr} {s t : State} (h : exec i s = .next t) : Effect s i t := by
  obtain ⟨t', ht, he⟩ := exec_effect i s
  rw [ht] at h; injection h with h; exact h ▸ he

theorem step_inversion {s t : State} (h : step s = .next t) : EngineMove s t := by
  obtain ⟨t', ht, hm⟩ := stepWith_move Config.brkResumes s
  rw [step_eq_stepWith, ht] at h; injection h with h; exact h ▸ hm

/-- The flags after Reset: I and U (R32). -/
theorem getFlag_resetCore (f : Flag) (s : State) : getFlag f (resetCore s) = (decide (f = .i) || decide (f = .u)) := by
  show (0x24#8 &&& f.mask != 0#8) = _
  cases f <;> decide

theorem powerOn_pc (s : State) : (powerOn s).pc = 0x0000#16 := by
  show join16 0x00#8 0x00#8 = 0x0000#16
  decide

theorem EngineMove.wf {s t : State} (h : EngineMove s t) (hw : s.mem.wf = true) : t.mem.wf = true := by
  cases h with
  | stay => exact hw
  | effect i pc t _ _ he => exact he.wf hw
  | rejected => exact hw

theorem Effect.statusInv {s t : State} {i : Instr} (he : Effect s i t) (h : StatusInv s) : StatusInv t := by
  obtain ⟨h1, h2, h3, h4, h5⟩ := h
  refine ⟨he.i h1, ?_, ?_, ?_, ?_⟩ <;> rw [he.status (by decide)] <;> assumption

theorem EngineMove.statusInv {s t : State} (h : EngineMove s t) (hs : StatusInv s) : StatusInv t := by
  cases h with
  | stay => exact hs
  | effect i pc t _ _ he => exact he.statusInv hs
  | rejected => exact hs

theorem statusInv_resetCore (s : State) : StatusInv (resetCore s) := by
  simp only [StatusInv, getFlag_resetCore]
  decide

theorem Effect.faultRecordInv {s t : State} {i : Instr} (he : Effect s i t) (hr : s.run = .running)
    (hu : ∀ o, i = .unknown o → dispatch o = .unknown) : FaultRecordInv t := by
  cases he with
  | load v => simp [FaultRecordInv, loaded, hr]
  | store ea => simp [FaultRecordInv, hr]
  | transfer => simp [FaultRecordInv, hr]
  | increment => simp [FaultRecordInv, hr]
  | interrupt r h => rcases h with rfl | rfl <;> simp [FaultRecordInv, hr]
  | unknown o pc => exact hu o rfl

theorem EngineMove.faultRecordInv {s t : State} (h : EngineMove s t) (hf : FaultRecordInv s) : FaultRecordInv t := by
  cases h with
  | stay => exact hf
  | effect i pc t hr hu he => exact he.faultRecordInv hr hu
  | rejected mode _ hm => exact ⟨rfl, hm⟩

/-- Only BRK sets B (R29). -/
theorem Effect.breakFlag {s t : State} {i : Instr} (he : Effect s i t) (hi : i ≠ .brk) : getFlag .b t = getFlag .b s := by
  cases he with
  | load v => simp [loaded, getFlag_setZN]
  | store ea => simp
  | transfer => simp [getFlag_setZN]
  | increment => simp [getFlag_setZN]
  | interrupt => exact absurd rfl hi
  | unknown o pc => simp

/-- An effect that ends Faulted is an unknown opcode's, and changes only the run state (R92). -/
theorem Effect.of_faulted {s t : State} {i : Instr} {f : EngineFault} (he : Effect s i t) (hr : s.run = .running)
    (hf : t.run = .faulted f) : (∃ o, i = .unknown o) ∧ OnlyRunChanged s t := by
  cases he with
  | load v => simp [loaded, hr] at hf
  | store ea => simp [hr] at hf
  | transfer => simp [hr] at hf
  | increment => simp [hr] at hf
  | interrupt r h => rcases h with rfl | rfl <;> simp [hr] at hf
  | unknown o pc => exact ⟨⟨o, rfl⟩, rfl, rfl, rfl, rfl, rfl, rfl, fun _ _ => rfl⟩

theorem step_of_stopped {s : State} (h : s.run ≠ .running) : step s = .next s := by
  rw [step_eq_stepWith]; exact stepWith_of_stopped _ h

/-- The host's run of a machine, one step at a time. -/
theorem core_run_succ (M : Host.Core) (k : Nat) (s t : M.State) (h : M.step s = .next t) : M.run (k + 1) s = M.run k t := by
  rw [Host.Core.run.eq_def]
  simp only [h]

end Sys2Proof.Machine
end

