-- ==== Sys2Proof/Laws/PerInstr.lean ====
section
/-! SUPPORT. Statements made constructor by constructor: an instruction that has bytes decodes from them. -/

namespace Sys2Proof.Laws.RoundTrip

/-- A well-formed instruction with bytes of its own decodes from them, whatever follows. -/
def Statement (i : Instr) : Prop :=
  ∀ bytes rest, i.wf = true → encode i = some bytes → decode (bytes ++ rest) = .ok (i, rest)

/-- A handler form has no bytes. -/
theorem of_no_bytes {i : Instr} (h : encode i = none) : Statement i := fun bytes _ _ he => by
  rw [h] at he; cases he

theorem ldaImm (imm : Byte) : Statement (.ldaImm imm) := fun _ _ _ he => by cases he; rfl
theorem inx : Statement .inx := fun _ _ _ he => by cases he; rfl
theorem brk : Statement .brk := fun _ _ _ he => by cases he; rfl
theorem ldaZeroPage (operand : Word) : Statement (.ldaZeroPage operand) := of_no_bytes rfl
theorem ldaZeroPageX (operand : Word) : Statement (.ldaZeroPageX operand) := of_no_bytes rfl
theorem ldaZeroPageY (operand : Word) : Statement (.ldaZeroPageY operand) := of_no_bytes rfl
theorem ldaAbsolute (operand : Word) : Statement (.ldaAbsolute operand) := of_no_bytes rfl
theorem ldaAbsoluteX (operand : Word) : Statement (.ldaAbsoluteX operand) := of_no_bytes rfl
theorem ldaAbsoluteY (operand : Word) : Statement (.ldaAbsoluteY operand) := of_no_bytes rfl
theorem ldaIndexedIndirect (operand : Word) : Statement (.ldaIndexedIndirect operand) := of_no_bytes rfl
theorem ldaIndirectIndexed (operand : Word) : Statement (.ldaIndirectIndexed operand) := of_no_bytes rfl
theorem staZeroPage (operand : Word) : Statement (.staZeroPage operand) := of_no_bytes rfl
theorem staAbsolute (operand : Word) : Statement (.staAbsolute operand) := of_no_bytes rfl
theorem staAbsoluteX (operand : Word) : Statement (.staAbsoluteX operand) := of_no_bytes rfl
theorem staAbsoluteY (operand : Word) : Statement (.staAbsoluteY operand) := of_no_bytes rfl
theorem tax : Statement .tax := of_no_bytes rfl

theorem unknown (opcode : Byte) : Statement (.unknown opcode) := fun _ rest hw he => by
  cases he
  simp only [Instr.wf, Bool.and_eq_true, bne_iff_ne, ne_eq] at hw
  simp [decode, dispatch, hw.1.1, hw.1.2, hw.2]

end Sys2Proof.Laws.RoundTrip
end

