-- ==== Sys2Proof/Tests/Slice0.lean ====
section
/-! SUPPORT. Tests: ill-formed terms refused, words written out from the spec's encodings, at most two steps for each
instruction with results from spec/95_test_vectors.md, and a witness for the hypotheses of each statement. -/

namespace Sys2Proof.Tests

open Sys2Proof.Machine

/-- The outcome is the next state `t`. -/
def isNext (o : Host.Outcome State Fault Refusal) (t : State) : Bool :=
  match o with
  | .next u => decide (u = t)
  | .fault _ => false
  | .refused _ => false

theorem eq_of_isNext {o : Host.Outcome State Fault Refusal} {t : State} (h : isNext o t = true) : o = .next t := by
  cases o with
  | next u => exact congrArg _ (of_decide_eq_true h)
  | fault f => exact absurd h Bool.false_ne_true
  | refused r => exact absurd h Bool.false_ne_true

/-- The reset state with PC at 0x8000 and a memory. -/
def at8000 (mem : Memory) : State := { State.reset with pc := 0x8000#16, mem := mem }

/-! ### WellFormed and Decode -/

/-- R62: 0xA9 is dispatched, so it is no unknown opcode. -/
theorem test_wf_refuses_dispatched_unknown :
    (Instr.unknown 0x00#8).wf = false ∧ (Instr.unknown 0xA9#8).wf = false ∧ (Instr.unknown 0xE8#8).wf = false ∧
      (Instr.unknown 0xEA#8).wf = true := by decide

/-- R68: a zero-page operand of 0x1234 is outside the contract, for LDA and for STA; 0x00FF is inside. -/
theorem test_contract_refuses_wide_zero_page_operand :
    (HandlerCall.lda 0x1234#16 .indirectIndexed).inContract = false ∧
      (HandlerCall.sta 0x0100#16 .zeroPage).inContract = false ∧
      (HandlerCall.lda 0x00FF#16 .zeroPageX).inContract = true ∧
      (HandlerCall.lda 0x1234#16 .absolute).inContract = true := by decide

/-- R58, R94: 10101001 iiiiiiii. -/
theorem test_decode_ldaImm : decode [0b10101001#8, 0b01000010#8, 0x55#8] = .ok (.ldaImm 0x42#8, [0x55#8]) := by decide

/-- R57, R101: 11101000. -/
theorem test_decode_inx : decode [0b11101000#8, 0x55#8] = .ok (.inx, [0x55#8]) := by decide

/-- R57, R106: 00000000, and the padding byte is not consumed (R64). -/
theorem test_decode_brk : decode [0b00000000#8, 0x55#8] = .ok (.brk, [0x55#8]) := by decide

/-- R62, C1: the 6502's LDA zp, STA zp, TAX and NOP bytes are unknown opcodes here, and so are the neighbours of 0xA9. -/
theorem test_decode_unknown :
    [0xA5#8, 0x85#8, 0xAA#8, 0xEA#8, 0xA8#8, 0x01#8, 0xFF#8].map dispatch =
      [.unknown, .unknown, .unknown, .unknown, .unknown, .unknown, .unknown] ∧
      decode [0xA5#8, 0x10#8] = .ok (.unknown 0xA5#8, [0x10#8]) := by decide

/-- A list that ends early is rejected by name (assumption 21). -/
theorem test_decode_rejects_short_lists :
    decode [] = .error .noOpcode ∧ decode [0xA9#8] = .error (.missingOperand 0xA9#8) := by decide

/-- The handler forms have no bytes: LDA in its memory modes, STA, TAX (R95, R96, R98). -/
theorem test_encode_handler_forms :
    [Instr.ldaZeroPage 0x10#16, .ldaZeroPageX 0#16, .ldaZeroPageY 0#16, .ldaAbsolute 0#16, .ldaAbsoluteX 0#16,
      .ldaAbsoluteY 0#16, .ldaIndexedIndirect 0#16, .ldaIndirectIndexed 0#16, .staZeroPage 0#16, .staAbsolute 0#16,
      .staAbsoluteX 0#16, .staAbsoluteY 0#16, .tax].all (fun i => (encode i).isNone) = true := by decide

/-! ### Memory, flags, addressing -/

/-- M2, M3: the wrap at 0xFFFF. -/
theorem test_memory_wrap :
    Memory.read16 [(0, 0x12#8), (0xFFFF, 0x34#8)] 0xFFFF#16 = 0x1234#16 ∧
      Memory.write16 [] 0xFFFF#16 0xABCD#16 = [(0, 0xAB#8), (0xFFFF, 0xCD#8)] := by decide

/-- Writing zero takes the entry away (assumption 5). -/
theorem test_memory_canonical : Memory.write8 [(3, 1#8), (5, 7#8)] 5#16 0#8 = [(3, 1#8)] := by decide

/-- AD2, AD3, AD5, AD8: zero-page masks and wraps, and the absolute wrap. -/
theorem test_direct_addresses :
    eaZeroPage 0x1234#16 State.reset = 0x0034#16 ∧
      eaZeroPageX 0x00F0#16 { State.reset with x := 0x20#8 } = 0x0010#16 ∧
      eaZeroPageY 0x00FF#16 { State.reset with y := 0x01#8 } = 0x0000#16 ∧
      eaAbsoluteX 0xFFFF#16 { State.reset with x := 0x01#8 } = 0x0000#16 := by decide

/-- W4 (b), AD14, AD15: the pointer wrap of (zp,X), the 16-bit wrap and the unmasked low byte of (zp),Y. -/
theorem test_indirect_addresses :
    eaIndexedIndirect 0x00FE#16
        { State.reset with x := 0x01#8, mem := [(0, 0x12#8), (0xFF, 0x34#8), (0x100, 0x99#8)] } = 0x1234#16 ∧
      eaIndirectIndexed 0x0010#16 { State.reset with y := 0x01#8, mem := [(0x10, 0xFF#8), (0x11, 0xFF#8)] } = 0x0000#16 ∧
      eaIndirectIndexed 0x1234#16 { State.reset with mem := [(0x35, 0x02#8), (0x1234, 0x01#8)] } = 0x0201#16 := by decide

/-! ### The instructions -/

/-- L4: A9 FF with Z set before clears Z and sets N. -/
theorem test_step_ldaImm :
    step { at8000 [(0x8000, 0xA9#8), (0x8001, 0xFF#8)] with p := 0x26#8 } =
      .next { at8000 [(0x8000, 0xA9#8), (0x8001, 0xFF#8)] with a := 0xFF#8, p := 0xA4#8, pc := 0x8002#16 } :=
  eq_of_isNext (by decide)

/-- L6: the operand of A9 at 0xFFFF is at 0x0000. -/
theorem test_step_ldaImm_wrap :
    step { State.reset with pc := 0xFFFF#16, mem := [(0, 0x42#8), (0xFFFF, 0xA9#8)] } =
      .next { State.reset with a := 0x42#8, pc := 0x0001#16, mem := [(0, 0x42#8), (0xFFFF, 0xA9#8)] } :=
  eq_of_isNext (by decide)

/-- R95's worked examples, one for each memory mode. -/
theorem test_exec_ldaZeroPage :
    exec (.ldaZeroPage 0x0010#16) (at8000 [(0x10, 0x55#8)]) = .next { at8000 [(0x10, 0x55#8)] with a := 0x55#8 } :=
  eq_of_isNext (by decide)

theorem test_exec_ldaZeroPageX :
    exec (.ldaZeroPageX 0x00F0#16) { at8000 [(0x110, 0x77#8)] with x := 0x20#8, a := 0x01#8 } =
      .next { at8000 [(0x110, 0x77#8)] with x := 0x20#8, a := 0x00#8, p := 0x26#8 } := eq_of_isNext (by decide)

theorem test_exec_ldaZeroPageY :
    exec (.ldaZeroPageY 0x00FF#16) { at8000 [(0, 0x80#8)] with y := 0x01#8 } =
      .next { at8000 [(0, 0x80#8)] with y := 0x01#8, a := 0x80#8, p := 0xA4#8 } := eq_of_isNext (by decide)

theorem test_exec_ldaAbsolute :
    exec (.ldaAbsolute 0x0200#16) (at8000 [(0x200, 0x7F#8)]) = .next { at8000 [(0x200, 0x7F#8)] with a := 0x7F#8 } :=
  eq_of_isNext (by decide)

theorem test_exec_ldaAbsoluteX :
    exec (.ldaAbsoluteX 0x12FF#16) { at8000 [(0x1300, 0x01#8)] with x := 0x01#8 } =
      .next { at8000 [(0x1300, 0x01#8)] with x := 0x01#8, a := 0x01#8 } := eq_of_isNext (by decide)

theorem test_exec_ldaAbsoluteY :
    exec (.ldaAbsoluteY 0xFFFF#16) { at8000 [(0, 0xFF#8)] with y := 0x01#8 } =
      .next { at8000 [(0, 0xFF#8)] with y := 0x01#8, a := 0xFF#8, p := 0xA4#8 } := eq_of_isNext (by decide)

theorem test_exec_ldaIndexedIndirect :
    exec (.ldaIndexedIndirect 0x00FF#16) (at8000 [(0, 0x12#8), (0xFF, 0x34#8), (0x1234, 0x99#8)]) =
      .next { at8000 [(0, 0x12#8), (0xFF, 0x34#8), (0x1234, 0x99#8)] with a := 0x99#8, p := 0xA4#8 } :=
  eq_of_isNext (by decide)

theorem test_exec_ldaIndirectIndexed :
    exec (.ldaIndirectIndexed 0x0086#16) { at8000 [(0x86, 0x28#8), (0x87, 0x40#8)] with y := 0x10#8, a := 0x01#8 } =
      .next { at8000 [(0x86, 0x28#8), (0x87, 0x40#8)] with y := 0x10#8, a := 0x00#8, p := 0x26#8 } :=
  eq_of_isNext (by decide)

/-- S2. -/
theorem test_exec_staZeroPage :
    exec (.staZeroPage 0x1234#16) { at8000 [] with a := 0x42#8 } = .next { at8000 [(0x34, 0x42#8)] with a := 0x42#8 } :=
  eq_of_isNext (by decide)

/-- S9: storing zero leaves Z alone. -/
theorem test_exec_staAbsolute :
    exec (.staAbsolute 0x0300#16) (at8000 [(0x300, 0x42#8)]) = .next (at8000 []) := eq_of_isNext (by decide)

/-- S4: IndexedX does not wrap in page 0. -/
theorem test_exec_staAbsoluteX :
    exec (.staAbsoluteX 0x00F0#16) { at8000 [] with a := 0x42#8, x := 0x20#8 } =
      .next { at8000 [(0x110, 0x42#8)] with a := 0x42#8, x := 0x20#8 } := eq_of_isNext (by decide)

/-- S5. -/
theorem test_exec_staAbsoluteY :
    exec (.staAbsoluteY 0xFFFE#16) { at8000 [] with a := 0x42#8, y := 0x03#8 } =
      .next { at8000 [(1, 0x42#8)] with a := 0x42#8, y := 0x03#8 } := eq_of_isNext (by decide)

/-- T2, T1. -/
theorem test_exec_tax :
    exec .tax { at8000 [] with a := 0x80#8 } = .next { at8000 [] with a := 0x80#8, x := 0x80#8, p := 0xA4#8 } ∧
      exec .tax { at8000 [] with x := 0x55#8 } = .next { at8000 [] with p := 0x26#8 } :=
  ⟨eq_of_isNext (by decide), eq_of_isNext (by decide)⟩

/-- I4: the wrap sets Z and leaves C. -/
theorem test_exec_inx :
    exec .inx { at8000 [] with x := 0xFF#8, p := 0x25#8 } = .next { at8000 [] with p := 0x27#8 } := eq_of_isNext (by decide)

/-- E5: INX at 0xFFFF. -/
theorem test_step_inx :
    step { State.reset with pc := 0xFFFF#16, mem := [(0xFFFF, 0xE8#8)] } =
      .next { State.reset with x := 0x01#8, mem := [(0xFFFF, 0xE8#8)] } := eq_of_isNext (by decide)

/-- W6 (a). -/
theorem test_step_brk :
    step (at8000 [(0xFFFF, 0x90#8)]) =
      .next { at8000 [(0x1FB, 0x34#8), (0x1FC, 0x03#8), (0x1FD, 0x80#8), (0xFFFF, 0x90#8)] with
        sp := 0xFA#8, p := 0x34#8, pc := 0x9000#16, run := .halted } := eq_of_isNext (by decide)

/-- B3 with W6 (b)'s status: SP wraps within page 1, and the pushed byte has I on. -/
theorem test_exec_brk_wrap :
    exec .brk { at8000 [] with sp := 0x00#8, p := 0x20#8, pc := 0x2000#16 } =
      .next { at8000 [(0x100, 0x20#8), (0x1FE, 0x34#8), (0x1FF, 0x02#8)] with
        sp := 0xFD#8, p := 0x34#8, pc := 0x0000#16, run := .halted } := eq_of_isNext (by decide)

/-- E4: the record holds the opcode's own address, and PC wraps. -/
theorem test_step_unknown :
    step { State.reset with pc := 0xFFFF#16, mem := [(0xFFFF, 0xFF#8)] } =
      .next { State.reset with mem := [(0xFFFF, 0xFF#8)], run := .faulted (.unknownOpcode 0xFF#8 0xFFFF#16) } :=
  eq_of_isNext (by decide)

/-! ### The host's interface -/

/-- B6: with `BRK_RESUMES = true` the engine stays Running. -/
theorem test_brk_resumes :
    stepWith true (at8000 [(0xFFFF, 0x90#8)]) =
      .next { at8000 [(0x1FB, 0x34#8), (0x1FC, 0x03#8), (0x1FD, 0x80#8), (0xFFFF, 0x90#8)] with
        sp := 0xFA#8, p := 0x34#8, pc := 0x9000#16 } := eq_of_isNext (by decide)

/-- S6, E1: STA with ZeroPageX faults, and a Faulted engine stays as it is. -/
theorem test_execute_rejects :
    execute (.sta 0x0010#16 .zeroPageX) { at8000 [] with a := 0x42#8 } =
        .next { at8000 [] with a := 0x42#8, run := .faulted (.invalidAddressingMode .sta .zeroPageX) } ∧
      execute .inx { at8000 [] with run := .faulted (.unknownOpcode 0xEA#8 0x8002#16) } =
        .next { at8000 [] with run := .faulted (.unknownOpcode 0xEA#8 0x8002#16) } :=
  ⟨eq_of_isNext (by decide), eq_of_isNext (by decide)⟩

/-- AD16: LDA Immediate through Execute takes the operand's low byte. -/
theorem test_execute_lda_immediate :
    execute (.lda 0x1280#16 .immediate) (at8000 []) = .next { at8000 [] with a := 0x80#8, p := 0xA4#8 } :=
  eq_of_isNext (by decide)

/-- M4 and M5: one byte past the end is rejected, and the last two bytes are not. -/
theorem test_loadImage_edge :
    loadImage [0xA9#8, 0x42#8] 0xFFFF#16 State.reset = .fault (.imageOutOfRange 0xFFFF#16 2) ∧
      loadImage [0x00#8, 0x90#8] 0xFFFE#16 State.reset = .next { State.reset with mem := [(0xFFFF, 0x90#8)] } :=
  ⟨rfl, eq_of_isNext (by decide)⟩

/-- M6, RS3: LoadProgram moves the vector and not PC, and Reset takes PC from it. -/
theorem test_boot :
    loadProgram [0xE8#8] State.reset = .next { State.reset with mem := [(0x8000, 0xE8#8), (0xFFFD, 0x80#8)] } ∧
      resetCore { State.reset with mem := [(0x8000, 0xE8#8), (0xFFFD, 0x80#8)] } =
        at8000 [(0x8000, 0xE8#8), (0xFFFD, 0x80#8)] :=
  ⟨eq_of_isNext (by decide), by decide⟩

/-- W1. -/
theorem test_reset_from_faulted :
    resetCore ⟨0x55#8, 0x10#8, 0x20#8, 0x00#8, 0xB6#8, 0x8003#16, [(0xFFFC, 0x34#8), (0xFFFD, 0x12#8)],
      .faulted (.unknownOpcode 0xEA#8 0x8002#16)⟩ =
      { State.reset with pc := 0x1234#16, mem := [(0xFFFC, 0x34#8), (0xFFFD, 0x12#8)] } := by decide

/-- B9, B10. -/
theorem test_pop :
    (pop { at8000 [(0x106, 0x77#8)] with sp := 0x05#8 }).1 = 0x77#8 ∧
      (pop { at8000 [(0x100, 0x66#8)] with sp := 0xFF#8 }).1 = 0x66#8 := by decide

/-- D22: Dump wraps past 0xFFFF. -/
theorem test_dump_wrap : dump 0xFFFF#16 2 (at8000 [(0, 0x11#8), (0xFFFF, 0x22#8)]) = [0x22#8, 0x11#8] := by decide

/-- The fetch word: LDA #0x42 placed at the reset PC is what the first step runs. -/
theorem test_withFetchWord :
    step (State.reset.withFetchWord 16 0x42A9) =
      .next { State.reset with a := 0x42#8, pc := 0x0002#16, mem := [(0, 0xA9#8), (1, 0x42#8)] } := eq_of_isNext (by decide)

/-! ### Witnesses for the hypotheses of the statements -/

/-- A running state with a byte at PC 0x8000. -/
abbrev withByte (b : Byte) : State := { at8000 [] with mem := (at8000 []).mem.write8 0x8000#16 b }

theorem step_answers (s : State) : ∃ t, step s = .next t := by
  obtain ⟨t, h, _⟩ := stepWith_move Config.brkResumes s
  exact ⟨t, by rw [step_eq_stepWith, h]⟩

theorem witness_MemoryStaysCanonical : ∃ s t, s.mem.wf = true ∧ step s = .next t :=
  ⟨at8000 [(0xFFFF, 0x90#8)], _, by decide, test_step_brk⟩

theorem witness_StatusInvariantIsKept : ∃ s t, StatusInv s ∧ step s = .next t :=
  ⟨at8000 [(0xFFFF, 0x90#8)], _, by unfold StatusInv; decide, test_step_brk⟩

theorem witness_BreakFlagClearUntilBrk : ∃ s t, s.run ≠ .halted ∧ BreakInv s ∧ step s = .next t :=
  ⟨at8000 [(0xFFFF, 0x90#8)], _, by decide, fun _ => by decide, test_step_brk⟩

theorem witness_FaultRecordsAreGenuine : ∃ s t, FaultRecordInv s ∧ step s = .next t ∧ t.run ≠ .running :=
  ⟨{ State.reset with pc := 0xFFFF#16, mem := [(0xFFFF, 0xFF#8)] }, _, True.intro, test_step_unknown, by decide⟩

theorem witness_ReachableStatesAreSound : afterHostOps false [.loadProgram [0x00#8], .reset, .step] State.reset ≠ State.reset := by
  decide

theorem witness_StepRunsDecodedInstruction : ∀ b ∈ [0x00#8, 0xA9#8, 0xE8#8, 0xFF#8], (withByte b).run = .running ∧
    ∃ i rest, decode [(withByte b).mem.read8 (withByte b).pc, (withByte b).mem.read8 ((withByte b).pc + 1)] = .ok (i, rest) := by
  intro b hb
  simp only [List.mem_cons, List.not_mem_nil, or_false] at hb
  rcases hb with rfl | rfl | rfl | rfl
  · exact ⟨rfl, .brk, [0x00#8], by decide⟩
  · exact ⟨rfl, .ldaImm 0x00#8, [], by decide⟩
  · exact ⟨rfl, .inx, [0x00#8], by decide⟩
  · exact ⟨rfl, .unknown 0xFF#8, [0x00#8], by decide⟩

theorem witness_StoppedEngineChangesNothing : ({ at8000 [] with run := .halted } : State).run ≠ .running ∧
    ({ at8000 [] with run := .faulted (.unknownOpcode 0xFF#8 0#16) } : State).run ≠ .running := by decide

theorem witness_WhatStopsTheEngine (resumes : Bool) : ∀ b ∈ [0x00#8, 0xA9#8, 0xE8#8, 0xFF#8], (withByte b).run = .running ∧
    ((withByte b).mem.read8 (withByte b).pc = b) ∧ ∃ t, stepWith resumes (withByte b) = .next t := by
  intro b hb
  obtain ⟨t, h, _⟩ := stepWith_move resumes (withByte b)
  refine ⟨rfl, ?_, t, h⟩
  simp only [List.mem_cons, List.not_mem_nil, or_false] at hb
  rcases hb with rfl | rfl | rfl | rfl <;> decide

theorem witness_ResumeParameterShowsOnlyOnBrk : (withByte 0x01#8).mem.read8 (withByte 0x01#8).pc ≠ 0x00#8 := by decide

theorem witness_ProgramCounterAfterStep : (withByte 0xFF#8).run = .running ∧ (withByte 0xFF#8).mem.wf = true ∧
    (withByte 0xA9#8).mem.read8 (withByte 0xA9#8).pc = 0xA9#8 ∧ (withByte 0xE8#8).mem.read8 (withByte 0xE8#8).pc = 0xE8#8 ∧
    (withByte 0x00#8).mem.read8 (withByte 0x00#8).pc = 0x00#8 ∧
    dispatch ((withByte 0x01#8).mem.read8 (withByte 0x01#8).pc) = .unknown := by decide

theorem witness_FetchWrapsAtTop :
    ({ State.reset with pc := 0xFFFF#16, mem := [(0, 0x42#8), (0xFFFF, 0xA9#8)] } : State).run = .running ∧
    byteAt { State.reset with pc := 0xFFFF#16, mem := [(0, 0x42#8), (0xFFFF, 0xA9#8)] } 0xFFFF = 0xA9#8 ∧
    byteAt { State.reset with pc := 0xFFFE#16, mem := [(0xFFFE, 0xA9#8), (0xFFFF, 0x01#8)] } 0xFFFE = 0xA9#8 ∧
    byteAt { State.reset with pc := 0xFFFF#16, mem := [(0xFFFF, 0xE8#8)] } 0xFFFF = 0xE8#8 := by decide

theorem witness_UnknownOpcodeFaults : ∀ b ∈ [0x01#8, 0xA8#8, 0xAA#8, 0xE7#8, 0xE9#8, 0xFF#8], (withByte b).run = .running ∧
    (withByte b).mem.read8 (withByte b).pc ≠ 0x00#8 ∧ (withByte b).mem.read8 (withByte b).pc ≠ 0xA9#8 ∧
    (withByte b).mem.read8 (withByte b).pc ≠ 0xE8#8 := by decide

/-- R90's example: all 65,536 bytes 0xE8, loaded by LoadImage. -/
theorem witness_MemoryFullOfInxNeverEnds : ∃ s t : State, loadImage (List.replicate 65536 0xE8#8) 0x0000#16 s = .next t ∧
    t.run = .running ∧ ∀ addr, t.mem.read8 addr = 0xE8#8 := by
  generalize hb : List.replicate 65536 0xE8#8 = bytes
  have hlen : bytes.length = 65536 := by rw [← hb, List.length_replicate]
  have hall : ∀ b ∈ bytes, b = 0xE8#8 := fun b hmem => by rw [← hb] at hmem; exact List.eq_of_mem_replicate hmem
  have hzero : (0x0000#16).toNat = 0 := rfl
  rcases loadImage_cases bytes 0x0000#16 State.reset with ⟨h, he⟩ | ⟨h, _⟩
  · refine ⟨State.reset, _, he, rfl, fun addr => ?_⟩
    have ha := addr.isLt
    rw [State.setMem_mem, Memory.read8_copyFrom _ _ _ rfl h, hzero, if_pos (Nat.zero_le _), Nat.sub_zero,
      List.getElem?_eq_getElem (by omega)]
    exact hall _ (List.getElem_mem _)
  · omega

theorem witness_RunIsRepeatedStep : runWith false 1 (withByte 0xFF#8) ≠ none ∧ runWith false 1 (withByte 0xE8#8) = none := by
  decide

theorem witness_PlacedInstructionIsTheNextToRun :
    State.reset.mem.wf = true ∧ decodeTableWord 16 0x42A9 = some (.ldaImm 0x42#8) ∧
      decodeTableWord 8 0xFF = some (.unknown 0xFF#8) := by decide

theorem witness_DispatchTable : ∀ b ∈ [0x01#8, 0xA8#8, 0xAA#8, 0xE7#8, 0xE9#8, 0xFF#8],
    b ≠ 0x00#8 ∧ b ≠ 0xA9#8 ∧ b ≠ 0xE8#8 := by decide

theorem witness_DecodeInvertsEncode :
    (Instr.ldaImm 0xFF#8).wf = true ∧ encode (.ldaImm 0xFF#8) = some [0xA9#8, 0xFF#8] ∧
      (Instr.unknown 0xEA#8).wf = true ∧ encode (.unknown 0xEA#8) = some [0xEA#8] := by decide

theorem witness_EncodeInvertsDecode :
    decode [0xA9#8, 0xA9#8, 0x00#8] = .ok (.ldaImm 0xA9#8, [0x00#8]) ∧ decode [0x01#8] = .ok (.unknown 0x01#8, []) := by decide

theorem witness_WriteChangesOneCell : Memory.wf [(0, 0x12#8), (0xFFFF, 0x34#8)] = true ∧ 0x0000#16 ≠ 0xFFFF#16 := by decide

theorem witness_SixteenBitAccessesAreLittleEndian : Memory.wf [(0, 0x12#8), (0xFFFF, 0x34#8)] = true ∧
    0x0001#16 ≠ 0xFFFF#16 ∧ 0x0001#16 ≠ 0xFFFF#16 + 1 := by decide

theorem witness_EqualReadsMakeEqualMemories : ∃ m m' : Memory, m.wf = true ∧ m'.wf = true ∧ ∀ addr, m.read8 addr = m'.read8 addr :=
  ⟨Memory.write8 [(3, 1#8), (5, 7#8)] 5#16 0#8, [(3, 1#8)], by decide, by decide, fun _ => by rw [test_memory_canonical]⟩

theorem witness_ValuePath : Mode.indirectIndexed ≠ .immediate ∧ Mode.zeroPage ≠ .immediate := by decide

theorem witness_LdaImmediateLoadsOperandByte :
    (withByte 0xA9#8).run = .running ∧ (withByte 0xA9#8).mem.read8 (withByte 0xA9#8).pc = 0b10101001#8 := by decide

theorem witness_StaStoresOneByte : (at8000 [(0xFFFF, 0x90#8)]).mem.wf = true ∧
    resolveAddress .sta 0xFFFF#16 .absoluteX { at8000 [] with x := 0x01#8 } = .ok 0x0000#16 ∧
    resolveAddress .sta 0x1234#16 .zeroPage (at8000 []) = .ok 0x0034#16 ∧
    resolveAddress .sta 0xFFFF#16 .absolute (at8000 []) = .ok 0xFFFF#16 ∧
    resolveAddress .sta 0xFFFE#16 .absoluteY { at8000 [] with y := 0x03#8 } = .ok 0x0001#16 := by decide

theorem witness_StaRejectsOtherModes : (at8000 []).run = .running ∧
    ∀ m ∈ [Mode.immediate, .zeroPageX, .zeroPageY, .indexedIndirect, .indirectIndexed],
      m ≠ .zeroPage ∧ m ≠ .absolute ∧ m ≠ .absoluteX ∧ m ≠ .absoluteY := by decide

theorem witness_InxIncrementsX :
    (withByte 0xE8#8).run = .running ∧ (withByte 0xE8#8).mem.read8 (withByte 0xE8#8).pc = 0b11101000#8 := by decide

theorem witness_PushWritesThenDecrements : (at8000 []).mem.wf = true ∧ 0xFFFF ≠ 0x0100 + (at8000 []).sp.toNat ∧
    Instr.tax ≠ .brk ∧ ∃ t, exec .tax (at8000 []) = .next t :=
  ⟨by decide, by decide, by decide, _, exec_tax _⟩

theorem witness_PopIncrementsThenReads : (at8000 [(0x1FE, 0x77#8)]).mem.wf = true := by decide

theorem witness_StackStaysInPageOne : (at8000 []).mem.wf = true ∧ (0x00FF#16).toNat < 0x0100 ∧ 0x01FF < (0x0200#16).toNat := by
  decide

theorem witness_TaxCopiesAIntoX : (at8000 []).run = .running := by decide

theorem witness_BrkTakesTheInterrupt : (withByte 0x00#8).mem.wf = true ∧ (withByte 0x00#8).run = .running ∧
    (withByte 0x00#8).mem.read8 (withByte 0x00#8).pc = 0b00000000#8 := by decide

theorem witness_BrkPushedStatusByte : (at8000 []).mem.wf = true ∧ getFlag .i (at8000 []) = true := by decide

theorem witness_BrkThroughStepPushesPlusThree : ({ at8000 [] with pc := 0xFFFD#16 } : State).run = .running ∧
    ({ at8000 [] with pc := 0xFFFD#16 } : State).mem.wf = true ∧
    ({ at8000 [] with pc := 0xFFFD#16 } : State).mem.read8 0xFFFD#16 = 0x00#8 := by decide

theorem witness_NestedBrksWrapTheStack : 0 < 86 := by decide

theorem witness_WhoWritesWhat : exec .tax { at8000 [] with a := 0x80#8 } =
    .next { at8000 [] with a := 0x80#8, x := 0x80#8, p := 0xA4#8 } := test_exec_tax.1

/-- Each clause of WhoWritesWhat: an instruction that does change A, SP and PC and the run state, P, and memory. -/
theorem witness_WhoWritesWhat_clauses :
    (∃ s t, exec (.ldaZeroPage 0x0010#16) s = .next t ∧ t.a ≠ s.a) ∧
    (∃ s t, exec .brk s = .next t ∧ t.sp ≠ s.sp ∧ t.pc ≠ s.pc ∧ t.run ≠ s.run ∧ t.p ≠ s.p) ∧
    (∃ s t, exec (.staZeroPage 0x1234#16) s = .next t ∧ t.mem.read8 0x0034#16 ≠ s.mem.read8 0x0034#16) :=
  ⟨⟨_, _, test_exec_ldaZeroPage, by decide⟩,
    ⟨_, _, test_exec_brk_wrap, by decide, by decide, by decide, by decide⟩,
    ⟨_, _, test_exec_staZeroPage, by decide⟩⟩

/-- Each clause of WhoWritesWhichFlag: I and B set by BRK, both kept once set, Z and N changed by INX and LDA. -/
theorem witness_WhoWritesWhichFlag :
    (∃ s t, exec .brk s = .next t ∧ getFlag .i t ≠ getFlag .i s ∧ getFlag .b t ≠ getFlag .b s) ∧
    (∃ s t, exec .inx s = .next t ∧ getFlag .z t ≠ getFlag .z s) ∧
    (∃ s t, exec (.ldaZeroPageY 0x00FF#16) s = .next t ∧ getFlag .n t ≠ getFlag .n s ∧ getFlag .i s = true) ∧
    (∃ s t, exec .inx s = .next t ∧ getFlag .b s = true) :=
  ⟨⟨_, _, test_exec_brk_wrap, by decide, by decide⟩, ⟨_, _, test_exec_inx, by decide⟩,
    ⟨_, _, test_exec_ldaZeroPageY, by decide, by decide⟩,
    ⟨{ at8000 [] with p := 0x34#8 }, _, exec_inx _, by decide⟩⟩

theorem witness_FlagsGateNothing : (at8000 []).mem.wf = true ∧ Instr.inx ≠ .brk := by decide

theorem witness_FaultsArePrecise :
    (∃ s t f, s.run = .running ∧ t.run = .faulted f ∧ stepWith false s = .next t) ∧
    (∃ s t f c, s.run = .running ∧ t.run = .faulted f ∧ executeWith false c s = .next t) :=
  ⟨⟨_, _, _, rfl, rfl, (step_eq_stepWith _).symm.trans test_step_unknown⟩, ⟨_, _, _, _, rfl, rfl, test_execute_rejects.1⟩⟩

theorem witness_ExecuteIsTheMeaning : (at8000 []).run = .running := by decide

theorem witness_ExecuteKeepsTheProgramCounter : ∃ s t c, executeWith false c s = .next t ∧ c ≠ .brk ∧ t.run ≠ s.run :=
  ⟨_, _, .sta 0x0010#16 .zeroPageX, test_execute_rejects.1, by decide, by decide⟩

/-- 65,536 is the largest end of an image that fits, and 65,537 the least that does not. -/
theorem witness_LoadImageCopiesOrRejects : State.reset.mem.wf = true ∧ (0xFFFE#16).toNat + [0x00#8, 0x90#8].length ≤ 65536 ∧
    65536 < (0xFFFF#16).toNat + [0xA9#8, 0x42#8].length := by decide

/-- 32,768 bytes fit and 32,769 do not (M7, M8); byte 0 is not under the vector. -/
theorem witness_LoadProgramPointsResetVector : State.reset.mem.wf = true ∧ (List.replicate 32768 0xE8#8).length ≤ 32768 ∧
    32768 < (List.replicate 32769 0xE8#8).length ∧ 0 < (List.replicate 32768 0xE8#8).length := by
  simp only [List.length_replicate]; decide

theorem witness_BootStartsTheProgram : ∃ s t, s.mem.wf = true ∧ loadProgram (0xE8#8 :: []) s = .next t :=
  ⟨State.reset, _, by decide, test_boot.1⟩

theorem witness_InspectionReflectsTheState : (dump 0xFFFF#16 2 (at8000 [])).length = 2 ∧ 1 < 2 := by decide

end Sys2Proof.Tests
end

section
/-! The flag accessors and the Zero/Negative rule (spec/10_state.md rules R19 and R21). -/

namespace Sys2Proof.Machine

theorem getFlag_eq_true_iff (f : Flag) (s : State) : getFlag f s = true ↔ s.p &&& f.mask ≠ 0#8 := bne_iff_ne

@[simp] theorem setFlag_true_p (f : Flag) (s : State) : (setFlag f true s).p = s.p ||| f.mask := rfl

@[simp] theorem setFlag_false_p (f : Flag) (s : State) : (setFlag f false s).p = s.p &&& ~~~f.mask := rfl

theorem getFlag_setFlag_same (f : Flag) (value : Bool) (s : State) : getFlag f (setFlag f value s) = value := by
  rw [getFlag_setFlag, if_pos rfl]

theorem flagsKept_setFlag (f : Flag) (value : Bool) (s : State) : FlagsKept [f] s (setFlag f value s) := by
  intro g hg
  have hgf : g ≠ f := by simpa using hg
  rw [getFlag_setFlag, if_neg hgf]

theorem getFlag_z_setZN (v : Byte) (s : State) : getFlag .z (setZN v s) = true ↔ v = 0x00#8 := by
  rw [getFlag_setZN, if_neg (by decide), if_pos rfl, beq_iff_eq]

theorem getFlag_n_setZN (v : Byte) (s : State) : getFlag .n (setZN v s) = v.getLsbD 7 := by
  rw [getFlag_setZN, if_pos rfl]

theorem taxHandler_eq_setZN (s : State) : taxHandler s = setZN s.a (s.setX s.a) := rfl

theorem inxHandler_eq_setZN (s : State) : inxHandler s = setZN (s.x + 1) (s.setX (s.x + 1)) := rfl

/-- Settles O28: a flag is the masked bit of P, and the write of P that `setFlag` makes moves that bit only. -/
theorem flagAccessorsWorkByMask : Obligations.FlagAccessorsWorkByMask := fun f value s =>
  ⟨getFlag_eq_true_iff f s, setFlag_true_p f s, setFlag_false_p f s,
    getFlag_setFlag_same f value s, flagsKept_setFlag f value s,
    setFlag_a f value s, setFlag_x f value s, setFlag_y f value s, setFlag_sp f value s,
    setFlag_pc f value s, setFlag_run f value s, setFlag_mem f value s⟩

/-- Settles O29: the rule flag by flag and its frame; then that each of the three handlers ends in it, LDA because no mode
fails on its value path (R69, R80). -/
theorem zeroNegativeRule : Obligations.ZeroNegativeRule := by
  constructor
  · intro v s
    exact ⟨getFlag_z_setZN v s, getFlag_n_setZN v s, flagsKept_setZN v s,
      setZN_a v s, setZN_x v s, setZN_y v s, setZN_sp v s, setZN_pc v s, setZN_run v s, setZN_mem v s⟩
  · intro s
    exact ⟨fun operand mode => ldaHandler_ok operand mode s, taxHandler_eq_setZN s, s.x + 1, inxHandler_eq_setZN s⟩

end Sys2Proof.Machine
end

section
/-! Reads after byte and word writes (spec/20_memory.md rules R36 to R38). -/

namespace Sys2Proof.Machine

theorem Memory.read8_write8_same {m : Memory} (h : m.wf = true) (addr : Word) (value : Byte) :
    (m.write8 addr value).read8 addr = value := by
  rw [Memory.read8_write8 h, if_pos rfl]

theorem Memory.read8_write8_ne {m : Memory} (h : m.wf = true) {addr other : Word} (hne : other ≠ addr) (value : Byte) :
    (m.write8 addr value).read8 other = m.read8 other := by
  rw [Memory.read8_write8 h, if_neg hne]

theorem lo8_eq_ofNat (w : Word) : lo8 w = BitVec.ofNat 8 (w.toNat % 256) := by
  rw [← lo8_toNat, BitVec.ofNat_toNat, BitVec.setWidth_eq]

theorem hi8_eq_ofNat (w : Word) : hi8 w = BitVec.ofNat 8 (w.toNat / 256) := by
  rw [← hi8_toNat, BitVec.ofNat_toNat, BitVec.setWidth_eq]

/-- The 16-bit wrap of R37: the successor of a word is that of its number, reduced modulo 2^16. -/
theorem word_add_one_eq_ofNat (addr : Word) : addr + 1 = BitVec.ofNat 16 (addr.toNat + 1) := by
  rw [BitVec.ofNat_add, BitVec.ofNat_toNat, BitVec.setWidth_eq]; rfl

/-- A word's two cells are distinct, also where the address wraps. -/
theorem word_ne_add_one (addr : Word) : addr ≠ addr + 1 := by bv_omega

theorem Memory.read16_eq_pairAt (m : Memory) (addr : Word) :
    (m.read16 addr).toNat = pairAt (m.read8 addr) (m.read8 (addr + 1)) :=
  m.read16_toNat addr

/-- The low byte survives the write of the high byte because that goes to another cell. -/
theorem Memory.read8_write16_low {m : Memory} (h : m.wf = true) (addr value : Word) :
    (m.write16 addr value).read8 addr = lo8 value := by
  rw [Memory.write16, Memory.read8_write8_ne (Memory.wf_write8 h _ _) (word_ne_add_one addr), Memory.read8_write8_same h]

theorem Memory.read8_write16_high {m : Memory} (h : m.wf = true) (addr value : Word) :
    (m.write16 addr value).read8 (addr + 1) = hi8 value :=
  Memory.read8_write8_same (Memory.wf_write8 h _ _) _ _

theorem Memory.read8_write16_ne {m : Memory} (h : m.wf = true) {addr other : Word} (hlow : other ≠ addr)
    (hhigh : other ≠ addr + 1) (value : Word) : (m.write16 addr value).read8 other = m.read8 other := by
  rw [Memory.write16, Memory.read8_write8_ne (Memory.wf_write8 h _ _) hhigh, Memory.read8_write8_ne h hlow]

theorem Memory.read16_write16_same {m : Memory} (h : m.wf = true) (addr value : Word) :
    (m.write16 addr value).read16 addr = value := by
  rw [Memory.read16, Memory.read8_write16_high h, Memory.read8_write16_low h, join16_hi8_lo8]

/-- Settles O25: `Memory.read8_write8` at the written address and at every other. -/
theorem writeChangesOneCell : Obligations.WriteChangesOneCell := fun _ addr value h =>
  ⟨Memory.read8_write8_same h addr value, fun _ hne => Memory.read8_write8_ne h hne value⟩

/-- Settles O26: each access is two byte accesses at distinct addresses, and joining the two halves of a word gives it back. -/
theorem sixteenBitAccessesAreLittleEndian : Obligations.SixteenBitAccessesAreLittleEndian := by
  intro m addr value h
  refine ⟨?read, m.read16_eq_pairAt 0xFFFF#16, ?low, ?high, ?others, Memory.read16_write16_same h addr value⟩
  case read => rw [← word_add_one_eq_ofNat, Memory.read16_eq_pairAt]
  case low => rw [Memory.read8_write16_low h, lo8_eq_ofNat]
  case high => rw [Memory.read8_write16_high h, hi8_eq_ofNat]
  case others => exact fun _ hlow hhigh => Memory.read8_write16_ne h hlow hhigh value

end Sys2Proof.Machine
end

section
/-! The dispatch outcome by outcome (spec/30_encoding.md rule R59). -/

namespace Sys2Proof.Machine

open Sys2Proof.Laws

/-- An unknown row is well formed exactly on the bytes that R59 leaves over. -/
theorem wf_unknown_iff (opcode : Byte) :
    (Instr.unknown opcode).wf = true ↔ opcode ≠ 0x00#8 ∧ opcode ≠ 0xA9#8 ∧ opcode ≠ 0xE8#8 := by
  simp [Instr.wf, and_assoc]

/-- Settles O21: each outcome is the round trip of its instruction's own bytes. A byte that is none of the three opcodes makes
a well-formed unknown row, which decodes from that byte. -/
theorem dispatchTable : Obligations.DispatchTable := by
  intro opcode imm rest
  refine ⟨?brk, ?ldaImm, ?inx, ?unknown⟩
  case brk =>
    rintro rfl
    exact ⟨RoundTrip.brk _ rest rfl rfl, rfl⟩
  case ldaImm =>
    rintro rfl
    exact ⟨RoundTrip.ldaImm imm _ rest rfl rfl, rfl⟩
  case inx =>
    rintro rfl
    exact ⟨RoundTrip.inx _ rest rfl rfl, rfl⟩
  case unknown =>
    intro hbrk hlda hinx
    exact RoundTrip.unknown opcode _ rest ((wf_unknown_iff opcode).2 ⟨hbrk, hlda, hinx⟩) rfl

end Sys2Proof.Machine
end

section
/-! The two paths of the addressing resolver (spec/40_addressing.md rules R69 to R79). -/

namespace Sys2Proof.Machine

/-- None of the eight memory modes can fail on the address path (R72 to R79). -/
theorem resolveAddress_ok_of_ne_immediate (op : Handler) (operand : Word) {mode : Mode} (hm : mode ≠ .immediate) (s : State) :
    ∃ ea, resolveAddress op operand mode s = .ok ea := by
  cases mode with
  | immediate => exact absurd rfl hm
  | _ => exact ⟨_, rfl⟩

@[simp] theorem resolveValue_immediate (op : Handler) (operand : Word) (s : State) :
    resolveValue op operand .immediate s = .ok (lo8 operand) := rfl

/-- The value path reads one byte where the address path points (R69). -/
theorem resolveValue_of_address {op : Handler} {operand ea : Word} {mode : Mode} {s : State} (hm : mode ≠ .immediate)
    (h : resolveAddress op operand mode s = .ok ea) : resolveValue op operand mode s = .ok (s.mem.read8 ea) := by
  rw [resolveValue, if_neg hm, h]

/-- Settles O30: each mode answers its effective address, and the mask or the 16-bit sum is that number's remainder. -/
theorem directEffectiveAddresses : Obligations.DirectEffectiveAddresses := by
  intro op operand s
  refine ⟨?zeroPage, ?zeroPageX, ?zeroPageY, ?absolute, ?absoluteX, ?absoluteY⟩
  case zeroPage => exact ⟨eaZeroPage operand s, rfl, eaZeroPage_toNat operand s⟩
  case zeroPageX => exact ⟨eaZeroPageX operand s, rfl, eaZeroPageX_toNat operand s⟩
  case zeroPageY => exact ⟨eaZeroPageY operand s, rfl, eaZeroPageY_toNat operand s⟩
  case absolute => exact ⟨eaAbsolute operand s, rfl, rfl⟩
  case absoluteX => exact ⟨eaAbsoluteX operand s, rfl, eaAbsoluteX_toNat operand s⟩
  case absoluteY => exact ⟨eaAbsoluteY operand s, rfl, eaAbsoluteY_toNat operand s⟩

/-- Settles O31: the address joins the two pointer bytes, each read at its wrapped pointer; only (zp),Y adds an index after. -/
theorem indirectEffectiveAddresses : Obligations.IndirectEffectiveAddresses := by
  intro op operand s
  constructor
  · exact ⟨eaIndexedIndirect operand s, rfl, eaIndexedIndirect_eq_pairAt operand s⟩
  · exact ⟨eaIndirectIndexed operand s, rfl, eaIndirectIndexed_eq_pairAt operand s⟩

/-- Settles O32: Immediate never consults the state, and every other mode has an address, at which the value path reads. -/
theorem valuePath : Obligations.ValuePath := by
  intro op operand s
  constructor
  · exact ⟨lo8 operand, lo8_toNat operand, resolveValue_immediate op operand⟩
  · intro mode hm
    obtain ⟨ea, hea⟩ := resolveAddress_ok_of_ne_immediate op operand hm s
    exact ⟨ea, hea, resolveValue_of_address hm hea⟩

end Sys2Proof.Machine
end

section
/-! The fetch of a byte and of an instruction's own bytes (spec/41_engine.md rule R82). -/

namespace Sys2Proof.Machine

/-- The 16-bit wrap of R82 at any distance: a word moved on by `k` is its number plus `k`, reduced modulo 2^16. -/
theorem word_add_ofNat_toNat (w : Word) (k : Nat) : (w + BitVec.ofNat 16 k).toNat = (w.toNat + k) % 65536 := by
  rw [BitVec.toNat_add, BitVec.toNat_ofNat, Nat.add_mod_mod]

/-- A fetch moves PC by the length of what it fetched, and touches nothing else. -/
theorem fetchInstr_snd (s : State) :
    (fetchInstr s).2 = s.setPc (s.pc + BitVec.ofNat 16 (fetchLength (fetchInstr s).1)) := by
  rcases fetchInstr_cases s with ⟨_, hf⟩ | ⟨_, hf⟩ | ⟨_, hf⟩ | ⟨_, _, _, hf⟩ <;> rw [hf] <;> rfl

/-- The bytes of the fetched instruction are those that stand in memory from PC on. -/
theorem encode_fetchInstr (s : State) :
    encode (fetchInstr s).1 =
      some (List.ofFn fun k : Fin (fetchLength (fetchInstr s).1) => s.mem.read8 (s.pc + BitVec.ofNat 16 k)) := by
  rcases fetchInstr_cases s with ⟨hop, hf⟩ | ⟨hop, hf⟩ | ⟨hop, hf⟩ | ⟨hop, _, _, hf⟩ <;>
    simp [hf, hop, encode, fetchLength]

/-- Settles O16: one byte by the definition of `fetchByte`; a whole instruction by where its fetch leaves PC and by its own
bytes, whose addresses wrap as PC does. -/
theorem fetchByteReadsAndIncrements : Obligations.FetchByteReadsAndIncrements := by
  constructor
  · intro s
    exact ⟨read8_eq_byteAt rfl, word_add_ofNat_toNat s.pc 1, rfl⟩
  · intro s
    refine ⟨?pc, ?frame, _, encode_fetchInstr s, List.length_ofFn, ?bytes⟩
    case pc => rw [fetchInstr_snd]; exact word_add_ofNat_toNat s.pc _
    case frame => rw [fetchInstr_snd]; rfl
    case bytes =>
      intro k hk
      rw [List.getElem_ofFn]
      exact read8_eq_byteAt (word_add_ofNat_toNat s.pc k)

end Sys2Proof.Machine
end

section
/-! LDA #imm through Step, and TAX, which has no bytes to be fetched from (spec/42_load_store_transfer.md rules R94 and R98). -/

namespace Sys2Proof.Machine

open Sys2Proof.Laws

/-- The opcode 0xA9 takes one operand byte, read with the 16-bit wrap after the opcode (R60, R82). -/
theorem fetchInstr_of_ldaImm_opcode {s : State} (h : s.mem.read8 s.pc = 0xA9#8) :
    fetchInstr s = (.ldaImm (s.mem.read8 (s.pc + 1)), s.setPc (s.pc + 2)) :=
  fetchInstr_eq_of_decode (tail := []) (by rw [h]; exact RoundTrip.ldaImm _ _ [] rfl rfl)

theorem step_of_ldaImm_opcode {s : State} (hr : s.run = .running) (h : s.mem.read8 s.pc = 0xA9#8) :
    step s = .next (loaded (s.mem.read8 (s.pc + 1)) (s.setPc (s.pc + 2))) := by
  rw [step_of_running hr, fetchInstr_of_ldaImm_opcode h, exec_ldaImm]

theorem execute_tax {s : State} (hr : s.run = .running) : execute .tax s = .next (setZN s.a (s.setX s.a)) :=
  executeWith_of_running Config.brkResumes .tax hr

/-- The decoder answers only instructions that have bytes, so never a handler form (R59, R95, R98). -/
theorem encode_ne_none_of_decode {bytes rest : List Byte} {i : Instr} (h : decode bytes = .ok (i, rest)) :
    encode i ≠ none := by
  cases bytes with
  | nil => cases h
  | cons opcode tail =>
    unfold decode at h
    cases hd : dispatch opcode <;> simp only [hd] at h
    case ldaImmediate =>
      cases tail with
      | nil => cases h
      | cons imm tail => cases h; exact Option.some_ne_none _
    all_goals cases h; exact Option.some_ne_none _

/-- Settles O33: the meaning loads the operand byte, and Step gives it the byte that the fetch finds after the opcode. -/
theorem ldaImmediateLoadsOperandByte : Obligations.LdaImmediateLoadsOperandByte := by
  constructor
  · intro imm s
    exact ⟨rfl, loaded imm s, exec_ldaImm imm s, loadedInto_loaded imm s⟩
  · intro s hr h
    rw [← read8_eq_byteAt (toNat_add_one s.pc)]
    exact ⟨_, step_of_ldaImm_opcode hr h, loadedInto_loaded _ (s.setPc (s.pc + 2))⟩

/-- Settles O39: the meaning and Execute end in the same write of X; the decoder cannot answer TAX because it has no bytes. -/
theorem taxCopiesAIntoX : Obligations.TaxCopiesAIntoX := by
  refine ⟨fun s => ⟨?exec, ?execute⟩, rfl, fun bytes rest h => encode_ne_none_of_decode h rfl⟩
  case exec => exact ⟨_, exec_tax s, putInX_setZN s.a s⟩
  case execute => exact fun hr => ⟨_, execute_tax hr, putInX_setZN s.a s⟩

end Sys2Proof.Machine
end

section
/-! INX as a meaning, through Execute and through Step (spec/43_increment.md rule R101). -/

namespace Sys2Proof.Machine

open Sys2Proof.Laws

/-- The 8-bit wrap of R101: the successor of a byte is that of its number, reduced modulo 256. -/
theorem byte_add_one_eq_ofNat (b : Byte) : b + 1 = BitVec.ofNat 8 ((b.toNat + 1) % 256) := by
  have h : (b + 1).toNat = (b.toNat + 1) % 256 := BitVec.toNat_add b 1
  rw [← h, BitVec.ofNat_toNat, BitVec.setWidth_eq]

/-- What INX leaves, in numbers. -/
theorem putInX_add_one (s : State) :
    PutInX (BitVec.ofNat 8 ((s.x.toNat + 1) % 256)) s (setZN (s.x + 1) (s.setX (s.x + 1))) := by
  rw [← byte_add_one_eq_ofNat]
  exact putInX_setZN (s.x + 1) s

theorem execute_inx {s : State} (hr : s.run = .running) :
    execute .inx s = .next (setZN (s.x + 1) (s.setX (s.x + 1))) :=
  executeWith_of_running Config.brkResumes .inx hr

/-- The opcode 0xE8 takes no operand byte, so its fetch leaves PC right above it (R60, R82). -/
theorem fetchInstr_of_inx_opcode {s : State} (h : s.mem.read8 s.pc = 0xE8#8) :
    fetchInstr s = (.inx, s.setPc (s.pc + 1)) :=
  fetchInstr_eq_of_decode (tail := []) (by rw [h]; exact RoundTrip.inx _ _ rfl rfl)

theorem step_of_inx_opcode {s : State} (hr : s.run = .running) (h : s.mem.read8 s.pc = 0xE8#8) :
    step s = .next (setZN (s.x + 1) ((s.setPc (s.pc + 1)).setX (s.x + 1))) := by
  rw [step_of_running hr, fetchInstr_of_inx_opcode h, exec_inx, State.setPc_x]

/-- Settles O40: the meaning, Execute and Step end in the same write of X, Step's from the state that the fetch leaves. -/
theorem inxIncrementsX : Obligations.InxIncrementsX := by
  refine ⟨fun s => ⟨?exec, ?execute⟩, rfl, ?step⟩
  case exec => exact ⟨_, exec_inx s, putInX_add_one s⟩
  case execute => exact fun hr => ⟨_, execute_inx hr, putInX_add_one s⟩
  case step =>
    intro s hr h
    exact ⟨_, step_of_inx_opcode hr h, putInX_add_one (s.setPc (s.pc + 1))⟩

end Sys2Proof.Machine
end

section
/-! Pushing a byte, and that no instruction but BRK pushes (spec/44_brk_stack.md rule R103). -/

namespace Sys2Proof.Machine

/-- The 8-bit wrap of R103: the predecessor of a byte is that of its number, reduced modulo 256. -/
theorem byte_sub_one_toNat (b : Byte) : (b - 1).toNat = (b.toNat + 255) % 256 := by bv_omega

theorem push_byteAt_stackAddr {s : State} (h : s.mem.wf = true) (v : Byte) :
    byteAt (push v s) (0x0100 + s.sp.toNat) = v := by
  rw [← read8_eq_byteAt (stackAddr_toNat s.sp), push_mem, Memory.read8_write8_same h]

theorem push_byteAt_ne {s : State} (h : s.mem.wf = true) (v : Byte) {addr : Nat} (hlt : addr < 65536)
    (hne : addr ≠ 0x0100 + s.sp.toNat) : byteAt (push v s) addr = byteAt s addr := by
  have hcell : BitVec.ofNat 16 addr ≠ stackAddr s.sp := fun hc =>
    hne (by rw [← stackAddr_toNat, ← hc, BitVec.toNat_ofNat]; exact (Nat.mod_eq_of_lt hlt).symm)
  rw [byteAt, push_mem, Memory.read8_write8_ne h hcell, byteAt]

/-- Only BRK moves the stack pointer (R16, R103). -/
theorem Effect.sp {s t : State} {i : Instr} (he : Effect s i t) (hi : i ≠ .brk) : t.sp = s.sp := by
  cases he with
  | interrupt => exact absurd rfl hi
  | _ => rfl

/-- Settles O41: the one write of `push` goes to the cell at SP, and the one effect that pushes is BRK's. -/
theorem pushWritesThenDecrements : Obligations.PushWritesThenDecrements := by
  constructor
  · intro v s h
    exact ⟨push_byteAt_stackAddr h v, fun _ hlt hne => push_byteAt_ne h v hlt hne, byte_sub_one_toNat s.sp,
      push_a v s, push_x v s, push_y v s, push_p v s, push_pc v s, push_run v s⟩
  · intro i s t hi h
    exact (exec_inversion h).sp hi

end Sys2Proof.Machine
end

section
/-! BRK under either value of `BRK_RESUMES`, through Execute and through Step (spec/44_brk_stack.md rule R106). -/

namespace Sys2Proof.Machine

open Sys2Proof.Laws

/-- What the BRK handler leaves: the interrupt is taken, and the parameter decides the run state alone (R6, R106). -/
theorem interruptTaken_brkHandler (resumes : Bool) {s : State} (h : s.mem.wf = true) :
    InterruptTaken (if resumes then s.run else .halted) s (brkHandler resumes s) := by
  cases resumes
  · rw [brkHandler_false]; exact interruptTaken_takeInterrupt .halted h
  · rw [brkHandler_true]; exact interruptTaken_takeInterrupt s.run h

theorem execWith_brk (resumes : Bool) (s : State) : execWith resumes .brk s = .next (brkHandler resumes s) := if_pos rfl

theorem executeWith_brk (resumes : Bool) {s : State} (hr : s.run = .running) :
    executeWith resumes .brk s = .next (brkHandler resumes s) :=
  executeWith_of_running resumes .brk hr

/-- The opcode 0x00 takes no operand byte, so its fetch leaves PC right above it (R60, R82). -/
theorem fetchInstr_of_brk_opcode {s : State} (h : s.mem.read8 s.pc = 0x00#8) :
    fetchInstr s = (.brk, s.setPc (s.pc + 1)) :=
  fetchInstr_eq_of_decode (tail := []) (by rw [h]; exact RoundTrip.brk _ _ rfl rfl)

theorem stepWith_of_brk_opcode (resumes : Bool) {s : State} (hr : s.run = .running) (h : s.mem.read8 s.pc = 0x00#8) :
    stepWith resumes s = .next (brkHandler resumes (s.setPc (s.pc + 1))) := by
  rw [stepWith_of_running resumes hr, fetchInstr_of_brk_opcode h, execWith_brk]

/-- Settles O44: the meaning, Execute and Step all end in the one handler, Step's from the state that the fetch leaves. -/
theorem brkTakesTheInterrupt : Obligations.BrkTakesTheInterrupt := by
  refine ⟨rfl, fun s h => ⟨?exec, ?halts, ?resumes, ?execute, ?step⟩⟩
  case exec => exact ⟨_, exec_brk s, interruptTaken_takeInterrupt .halted h⟩
  case halts => exact interruptTaken_brkHandler false h
  case resumes => exact interruptTaken_brkHandler true h
  case execute =>
    intro hr resumes
    rw [← hr]
    exact ⟨_, executeWith_brk resumes hr, interruptTaken_brkHandler resumes h⟩
  case step =>
    intro hr hop resumes
    rw [← hr]
    exact ⟨_, stepWith_of_brk_opcode resumes hr hop,
      interruptTaken_brkHandler resumes (s := s.setPc (s.pc + 1)) h⟩

end Sys2Proof.Machine
end

section
/-! PowerOn and Reset (spec/70_reset_and_hazards.md rules R127 to R129). -/

namespace Sys2Proof.Machine

/-- Cleared memory makes the reset vector 0x0000, which is where the reset state starts (R32, R127). -/
theorem powerOn_eq_reset (s : State) : powerOn s = State.reset := by
  show State.reset.setPc (powerOn s).pc = State.reset
  rw [powerOn_pc]; rfl

theorem statusInv_reset : StatusInv State.reset := by
  rw [← powerOn_eq_reset State.reset]; exact statusInv_resetCore _

/-- Reset leaves B clear, whatever it was before (R128). -/
theorem breakInv_resetCore (s : State) : BreakInv (resetCore s) := fun _ => getFlag_resetCore .b s

theorem breakInv_reset : BreakInv State.reset := by
  rw [← powerOn_eq_reset State.reset]; exact breakInv_resetCore _

/-- Settles O1: every field but PC is the reset value by definition, and PC comes from a cleared vector. -/
theorem powerOnLeavesResetState : Obligations.PowerOnLeavesResetState := fun s =>
  ⟨powerOn_eq_reset s, rfl, rfl, rfl, rfl, rfl, rfl, rfl, fun _ => rfl⟩

/-- Settles O2: the registers are constants, the flags are those of 0x24, and PC is the vector's two bytes. -/
theorem resetLoadsVectorKeepsMemory : Obligations.ResetLoadsVectorKeepsMemory := fun s =>
  ⟨rfl, rfl, rfl, rfl, fun f => getFlag_resetCore f s, s.mem.read16_eq_pairAt Config.resetVector, rfl, fun _ _ => rfl⟩

/-- Settles O3: the status and break flags by those of Reset; the empty memory is canonical and Running holds no record. -/
theorem invariantsHoldAtReset : Obligations.InvariantsHoldAtReset :=
  ⟨rfl, statusInv_reset, breakInv_reset, trivial⟩

end Sys2Proof.Machine
end

section
/-! The invariants along every step and host operation (spec/10_state.md rule R30, spec/60_exceptions.md rules R111 and R112). -/

namespace Sys2Proof.Machine

theorem HostMove.wf {s t : State} (h : HostMove s t) (hw : s.mem.wf = true) : t.mem.wf = true := by
  cases h with
  | engine t hm => exact hm.wf hw
  | reset m hm => exact hm hw
  | memory m hm => exact hm hw

theorem HostMove.statusInv {s t : State} (h : HostMove s t) (hs : StatusInv s) : StatusInv t := by
  cases h with
  | engine t hm => exact hm.statusInv hs
  | reset m _ => exact statusInv_resetCore _
  | memory m _ => exact hs

theorem HostMove.faultRecordInv {s t : State} (h : HostMove s t) (hf : FaultRecordInv s) : FaultRecordInv t := by
  cases h with
  | engine t hm => exact hm.faultRecordInv hf
  | reset m _ => exact trivial
  | memory m _ => exact hf

theorem EngineMove.y {s t : State} (h : EngineMove s t) : t.y = s.y := by
  cases h with
  | stay => rfl
  | effect i pc t _ _ he => exact he.y
  | rejected => rfl

/-- Y is 0 from PowerOn on: nothing writes it but Reset, which clears it (R15, R128). -/
theorem HostMove.y_eq_zero {s t : State} (h : HostMove s t) (hy : s.y = 0x00#8) : t.y = 0x00#8 := by
  cases h with
  | engine t hm => rw [hm.y, hy]
  | reset m _ => rfl
  | memory m _ => exact hy

/-- B stays clear while the engine is not Halted, if the only instruction that sets it halts the engine (R29, R109). -/
theorem Effect.breakInv {s t : State} {i : Instr} (he : Effect s i t) (hr : s.run = .running)
    (hhalt : i = .brk → t.run = .halted) (hb : BreakInv s) : BreakInv t := by
  intro ht
  have hi : i ≠ .brk := fun hc => ht (hhalt hc)
  rw [he.breakFlag hi]
  exact hb (by simp [hr])

theorem run_of_execWith_brk_false {s t : State} (h : execWith false .brk s = .next t) : t.run = .halted := by
  rw [execWith_brk_false] at h; cases h; rfl

theorem stepWith_false_breakInv {s t : State} (h : stepWith false s = .next t) (hb : BreakInv s) : BreakInv t := by
  by_cases hr : s.run = .running
  · rw [stepWith_of_running false hr] at h
    obtain ⟨pc, hpc⟩ := fetchInstr_state s
    obtain ⟨u, hu, he⟩ := execWith_effect false (fetchInstr s).1 (fetchInstr s).2
    obtain rfl : u = t := Host.Outcome.next.inj (hu.symm.trans h)
    rw [hpc] at he
    exact he.breakInv hr (fun hi => run_of_execWith_brk_false (hi ▸ hu)) hb
  · rw [stepWith_of_stopped false hr] at h
    cases h; exact hb

theorem executeWith_false_breakInv {c : HandlerCall} {s t : State} (h : executeWith false c s = .next t) (hb : BreakInv s) :
    BreakInv t := by
  by_cases hr : s.run = .running
  · rw [executeWith_of_running false c hr] at h
    rcases callHandler_cases false c s with ⟨i, u, hu, _, hc, he⟩ | ⟨_, mode, _, _, hu⟩ <;> rw [hu] at h <;> cases h
    · refine he.breakInv hr (fun hi => ?_) hb
      rw [hc hi] at hu
      cases hu; rfl
    · exact fun _ => hb (by simp [hr])
  · rw [executeWith_of_stopped false c hr] at h
    cases h; exact hb

theorem afterHostOp_of_next {resumes : Bool} {op : HostOp} {s t : State} (h : hostOp resumes op s = .next t) :
    afterHostOp resumes op s = t := by
  rw [afterHostOp, h]

/-- A fault of the host's interface leaves the whole state unchanged (R42, R113). -/
theorem afterHostOp_of_fault {resumes : Bool} {op : HostOp} {s : State} {f : Fault} (h : hostOp resumes op s = .fault f) :
    afterHostOp resumes op s = s := by
  rw [afterHostOp, h]

/-- A load changes memory alone, or nothing (R40 to R42). -/
theorem afterHostOp_loadImage (resumes : Bool) (bytes : List Byte) (origin : Word) (s : State) :
    ∃ m, afterHostOp resumes (.loadImage bytes origin) s = s.setMem m := by
  rcases loadImage_cases bytes origin s with ⟨_, h⟩ | ⟨_, h⟩
  · exact ⟨_, afterHostOp_of_next h⟩
  · exact ⟨s.mem, afterHostOp_of_fault h⟩

theorem afterHostOp_loadProgram (resumes : Bool) (bytes : List Byte) (s : State) :
    ∃ m, afterHostOp resumes (.loadProgram bytes) s = s.setMem m := by
  rcases loadProgram_cases bytes s with ⟨_, h⟩ | ⟨_, h⟩
  · exact ⟨_, afterHostOp_of_next h⟩
  · exact ⟨s.mem, afterHostOp_of_fault h⟩

theorem afterHostOp_false_breakInv (op : HostOp) {s : State} (hb : BreakInv s) : BreakInv (afterHostOp false op s) := by
  cases op with
  | powerOn => exact breakInv_resetCore _
  | reset => exact breakInv_resetCore s
  | loadImage bytes origin =>
    obtain ⟨m, hm⟩ := afterHostOp_loadImage false bytes origin s
    rw [hm]; exact hb
  | loadProgram bytes =>
    obtain ⟨m, hm⟩ := afterHostOp_loadProgram false bytes s
    rw [hm]; exact hb
  | step =>
    obtain ⟨t, ht, _⟩ := stepWith_move false s
    rw [afterHostOp_of_next (op := .step) ht]; exact stepWith_false_breakInv ht hb
  | execute c =>
    obtain ⟨t, ht, _⟩ := executeWith_move false c s
    rw [afterHostOp_of_next (op := .execute c) ht]; exact executeWith_false_breakInv ht hb

/-- Settles O4: every engine move writes memory through `write8`, and every load through `write8` too. -/
theorem memoryStaysCanonical : Obligations.MemoryStaysCanonical :=
  ⟨fun _ _ hw h => (step_inversion h).wf hw, fun resumes op s hw => (afterHostOp_move resumes op s).wf hw⟩

/-- Settles O5: no effect writes C, D, U or V or clears I, and Reset sets the five as the invariant has them. -/
theorem statusInvariantIsKept : Obligations.StatusInvariantIsKept :=
  ⟨fun _ _ hs h => (step_inversion h).statusInv hs, fun resumes op s hs => (afterHostOp_move resumes op s).statusInv hs⟩

/-- Settles O6: only BRK sets B, and with `BRK_RESUMES = false` its handler halts the engine, through Step and Execute. -/
theorem breakFlagClearUntilBrk : Obligations.BreakFlagClearUntilBrk := by
  constructor
  · intro s t hb h
    rw [step_eq_stepWith] at h
    exact stepWith_false_breakInv h hb
  · exact fun op s hb => afterHostOp_false_breakInv op hb

/-- Settles O7: a new record is the dispatch's of an undispatched byte or STA's of a mode it rejects. -/
theorem faultRecordsAreGenuine : Obligations.FaultRecordsAreGenuine :=
  ⟨fun _ _ hf h => (step_inversion h).faultRecordInv hf,
    fun resumes op s hf => (afterHostOp_move resumes op s).faultRecordInv hf⟩

/-- Settles O8: each part holds at reset and every host operation keeps it. -/
theorem reachableStatesAreSound : Obligations.ReachableStatesAreSound := by
  intro resumes ops
  obtain ⟨hmem, hstatus, hbreak, hrecord⟩ := invariantsHoldAtReset
  refine ⟨?canonical, ?status, ?record, ?yZero, ?breakFlag⟩
  case canonical =>
    exact afterHostOps_induction (P := fun s => s.mem.wf = true) resumes (memoryStaysCanonical.2 resumes) ops hmem
  case status => exact afterHostOps_induction resumes (statusInvariantIsKept.2 resumes) ops hstatus
  case record => exact afterHostOps_induction resumes (faultRecordsAreGenuine.2 resumes) ops hrecord
  case yZero =>
    exact afterHostOps_induction (P := fun s => s.y = 0x00#8) resumes
      (fun op s hy => (afterHostOp_move resumes op s).y_eq_zero hy) ops rfl
  case breakFlag =>
    rintro rfl
    exact afterHostOps_induction false breakFlagClearUntilBrk.2 ops hbreak

end Sys2Proof.Machine
end

section
/-! The round trips of the encoding (spec/30_encoding.md rules R56 to R62). -/

namespace Sys2Proof.Machine

open Sys2Proof.Laws

/-- Every instruction decodes from its own bytes. -/
theorem roundTrip (i : Instr) : RoundTrip.Statement i := by
  cases i with
  | ldaImm imm => exact RoundTrip.ldaImm imm
  | inx => exact RoundTrip.inx
  | brk => exact RoundTrip.brk
  | ldaZeroPage operand => exact RoundTrip.ldaZeroPage operand
  | ldaZeroPageX operand => exact RoundTrip.ldaZeroPageX operand
  | ldaZeroPageY operand => exact RoundTrip.ldaZeroPageY operand
  | ldaAbsolute operand => exact RoundTrip.ldaAbsolute operand
  | ldaAbsoluteX operand => exact RoundTrip.ldaAbsoluteX operand
  | ldaAbsoluteY operand => exact RoundTrip.ldaAbsoluteY operand
  | ldaIndexedIndirect operand => exact RoundTrip.ldaIndexedIndirect operand
  | ldaIndirectIndexed operand => exact RoundTrip.ldaIndirectIndexed operand
  | staZeroPage operand => exact RoundTrip.staZeroPage operand
  | staAbsolute operand => exact RoundTrip.staAbsolute operand
  | staAbsoluteX operand => exact RoundTrip.staAbsoluteX operand
  | staAbsoluteY operand => exact RoundTrip.staAbsoluteY operand
  | tax => exact RoundTrip.tax
  | unknown opcode => exact RoundTrip.unknown opcode

/-- The inversion lemma of the decoder: what it answers has bytes of its own, and it consumed exactly these. -/
theorem decode_inversion {bytes rest : List Byte} {i : Instr} (h : decode bytes = .ok (i, rest)) :
    i.wf = true ∧ ∃ own, encode i = some own ∧ bytes = own ++ rest ∧ own.length = fetchLength i := by
  cases bytes with
  | nil => cases h
  | cons opcode tail =>
    by_cases hbrk : opcode = 0x00#8
    · subst hbrk; cases h; exact ⟨rfl, _, rfl, rfl, rfl⟩
    by_cases hlda : opcode = 0xA9#8
    · subst hlda
      cases tail with
      | nil => cases h
      | cons imm tail => cases h; exact ⟨rfl, _, rfl, rfl, rfl⟩
    by_cases hinx : opcode = 0xE8#8
    · subst hinx; cases h; exact ⟨rfl, _, rfl, rfl, rfl⟩
    · have hwf := (wf_unknown_iff opcode).2 ⟨hbrk, hlda, hinx⟩
      have hown : decode (opcode :: tail) = .ok (.unknown opcode, tail) := RoundTrip.unknown opcode _ tail hwf rfl
      rw [hown] at h; cases h
      exact ⟨hwf, _, rfl, rfl, rfl⟩

/-- Settles O23, constructor by constructor: four forms have bytes that lead the dispatch back to them, the others none. -/
theorem decodeInvertsEncode : Obligations.DecodeInvertsEncode := fun i bytes rest hwf he => roundTrip i bytes rest hwf he

/-- Settles O24: the decoder takes one byte, and one more after 0xA9, and answers the instruction of these bytes. -/
theorem encodeInvertsDecode : Obligations.EncodeInvertsDecode := fun _ _ _ h => decode_inversion h

/-- Settles O22: the four words, evaluated. -/
theorem tableWordsDecode : Obligations.TableWordsDecode := by
  refine ⟨?ldaImm, ?inx, ?brk, ?unknown⟩ <;> decide

/-- Settles O27: two canonical lists with equal lookups have the same head, and so on down. -/
theorem equalReadsMakeEqualMemories : Obligations.EqualReadsMakeEqualMemories := fun m m' h h' hr =>
  Memory.eq_of_lookup h h' fun b hb => by
    have hread := hr (BitVec.ofNat 16 b)
    simpa only [Memory.read8, BitVec.toNat_ofNat, Nat.mod_eq_of_lt hb] using hread

end Sys2Proof.Machine
end

section
/-! One Step by its opcode byte, and Run (spec/41_engine.md rules R81 to R90). -/

namespace Sys2Proof.Machine

/-- Four kinds of opcode byte (R59). -/
theorem opcode_cases (b : Byte) : b = 0x00#8 ∨ b = 0xA9#8 ∨ b = 0xE8#8 ∨ dispatch b = .unknown := by
  by_cases hbrk : b = 0x00#8
  · exact .inl hbrk
  by_cases hlda : b = 0xA9#8
  · exact .inr (.inl hlda)
  by_cases hinx : b = 0xE8#8
  · exact .inr (.inr (.inl hinx))
  · exact .inr (.inr (.inr (dispatch_unknown hbrk hlda hinx)))

theorem ne_of_dispatch_unknown {b : Byte} (h : dispatch b = .unknown) : b ≠ 0x00#8 ∧ b ≠ 0xA9#8 ∧ b ≠ 0xE8#8 := by
  refine ⟨?_, ?_, ?_⟩ <;> rintro rfl <;> cases h

/-- An undispatched opcode is fetched alone, so PC stands right above it (R60, R82). -/
theorem fetchInstr_of_unknown_opcode {s : State} (h : dispatch (s.mem.read8 s.pc) = .unknown) :
    fetchInstr s = (.unknown (s.mem.read8 s.pc), s.setPc (s.pc + 1)) := by
  obtain ⟨hbrk, hlda, hinx⟩ := ne_of_dispatch_unknown h
  rcases fetchInstr_cases s with ⟨hb, _⟩ | ⟨hb, _⟩ | ⟨hb, _⟩ | ⟨_, _, _, hf⟩
  · exact absurd hb hbrk
  · exact absurd hb hlda
  · exact absurd hb hinx
  · exact hf

theorem step_of_unknown_opcode {s : State} (hr : s.run = .running) (h : dispatch (s.mem.read8 s.pc) = .unknown) :
    step s = .next ((s.setPc (s.pc + 1)).setRun (.faulted (.unknownOpcode (s.mem.read8 s.pc) s.pc))) := by
  rw [step_of_running hr, fetchInstr_of_unknown_opcode h, exec_unknown, State.setPc_pc, BitVec.add_sub_cancel]

/-- Only BRK depends on the parameter (R6). -/
theorem execWith_of_ne_brk (resumes : Bool) {i : Instr} (hi : i ≠ .brk) (s : State) : execWith resumes i s = exec i s :=
  if_neg hi

theorem fetchInstr_ne_brk {s : State} (h : s.mem.read8 s.pc ≠ 0x00#8) : (fetchInstr s).1 ≠ .brk := by
  rcases fetchInstr_cases s with ⟨hb, _⟩ | ⟨_, hf⟩ | ⟨_, hf⟩ | ⟨_, _, _, hf⟩
  · exact absurd hb h
  all_goals rw [hf]; exact Instr.noConfusion

theorem stepWith_eq_step (resumes : Bool) {s : State} (h : s.mem.read8 s.pc ≠ 0x00#8) : stepWith resumes s = step s := by
  by_cases hr : s.run = .running
  · rw [stepWith_of_running resumes hr, step_of_running hr, execWith_of_ne_brk resumes (fetchInstr_ne_brk h)]
  · rw [stepWith_of_stopped resumes hr, step_of_stopped hr]

theorem brkHandler_run (resumes : Bool) (s : State) : (brkHandler resumes s).run = if resumes then s.run else .halted := by
  cases resumes
  · rw [brkHandler_false, State.setRun_run, if_neg Bool.false_ne_true]
  · rw [brkHandler_true, State.setRun_run, if_pos rfl]

/-- Settles O13: the parameter reaches `execWith` alone, which reads it for BRK alone, and only 0x00 is fetched as BRK. -/
theorem resumeParameterShowsOnlyOnBrk : Obligations.ResumeParameterShowsOnlyOnBrk := fun s =>
  ⟨step_eq_stepWith s, fun h => by rw [stepWith_eq_step true h, stepWith_eq_step false h]⟩

/-- Settles O9: the fetch of a Step is the decoder on the bytes at PC. -/
theorem stepRunsDecodedInstruction : Obligations.StepRunsDecodedInstruction := by
  intro s i rest hr h
  rw [step_of_running hr, fetchInstr_eq_of_decode h]; rfl

/-- Settles O10 by the inversion lemmas of Step and Execute. -/
theorem engineAlwaysAnswers : Obligations.EngineAlwaysAnswers := by
  intro resumes s
  have hstep : ∀ r, ∃ t, stepWith r s = .next t := fun r => (stepWith_move r s).imp fun _ h => h.1
  refine ⟨?step, hstep resumes, fun c => (executeWith_move resumes c s).imp fun _ h => h.1⟩
  case step => rw [step_eq_stepWith]; exact hstep _

theorem runWith_of_stopped (resumes : Bool) {s : State} (h : s.run ≠ .running) (fuel : Nat) :
    runWith resumes fuel s = some s := by
  cases fuel <;> exact if_neg h

/-- While Running, one unit of fuel pays for one Step (R84). -/
theorem runWith_succ_of_running {resumes : Bool} {s t : State} (hr : s.run = .running) (h : stepWith resumes s = .next t)
    (fuel : Nat) : runWith resumes (fuel + 1) s = runWith resumes fuel t := by
  rw [runWith, if_pos hr, h]

theorem core_run_of_stopped {s : State} (h : s.run ≠ .running) (k : Nat) :
    Host.Core.run Sys2Proof.core k s = .next s := by
  induction k with
  | zero => rfl
  | succ k ih => rw [core_run_succ Sys2Proof.core k s s (step_of_stopped h), ih]

/-- Settles O11: each port looks at the run state first. -/
theorem stoppedEngineChangesNothing : Obligations.StoppedEngineChangesNothing := fun resumes _ h =>
  ⟨step_of_stopped h, stepWith_of_stopped resumes h, fun c => executeWith_of_stopped resumes c h,
    runWith_of_stopped resumes h⟩

/-- Settles O12, by the byte at PC: each kind of byte has one run state after it. -/
theorem whatStopsTheEngine : Obligations.WhatStopsTheEngine := by
  intro resumes s t hr ht
  rcases opcode_cases (s.mem.read8 s.pc) with hop | hop | hop | hop
  · rw [stepWith_of_brk_opcode resumes hr hop] at ht; cases ht
    cases resumes <;> simp [brkHandler_run, hr, hop, dispatch]
  · rw [stepWith_eq_step resumes (by simp [hop]), step_of_ldaImm_opcode hr hop] at ht; cases ht
    simp [loaded, hr, hop, dispatch]
  · rw [stepWith_eq_step resumes (by simp [hop]), step_of_inx_opcode hr hop] at ht; cases ht
    simp [hr, hop, dispatch]
  · obtain ⟨hbrk, hlda, hinx⟩ := ne_of_dispatch_unknown hop
    rw [stepWith_eq_step resumes hbrk, step_of_unknown_opcode hr hop] at ht; cases ht
    simp [hbrk, hlda, hinx, hop]

/-- Settles O14, row by row of R87's table. -/
theorem programCounterAfterStep : Obligations.ProgramCounterAfterStep := by
  intro s hr hw
  obtain ⟨t, ht⟩ := (engineAlwaysAnswers false s).1
  refine ⟨t, ht, ?ldaImm, ?inx, ?brk, ?unknown⟩ <;> intro hop
  case ldaImm =>
    rw [step_of_ldaImm_opcode hr hop] at ht; cases ht
    exact toNat_add_two s.pc
  case inx =>
    rw [step_of_inx_opcode hr hop] at ht; cases ht
    exact toNat_add_one s.pc
  case brk =>
    rw [step_eq_stepWith, stepWith_of_brk_opcode _ hr hop] at ht; cases ht
    obtain ⟨_, _, _, _, _, _, _, hpc, _⟩ := interruptTaken_brkHandler Config.brkResumes (s := s.setPc (s.pc + 1)) hw
    exact hpc
  case unknown =>
    rw [step_of_unknown_opcode hr hop] at ht; cases ht
    exact toNat_add_one s.pc

/-- Settles O15: 16-bit addition wraps, for PC and for the operand's address. -/
theorem fetchWrapsAtTop : Obligations.FetchWrapsAtTop := by
  refine fun s hr => ⟨fun hpc hop => ?ldaAtTop, fun hpc hop => ?ldaBelowTop, fun hpc hop => ?inxAtTop⟩
  case ldaAtTop =>
    exact ⟨_, step_of_ldaImm_opcode hr (by rw [hpc]; exact hop), by rw [hpc]; rfl, by rw [hpc]; rfl⟩
  case ldaBelowTop =>
    exact ⟨_, step_of_ldaImm_opcode hr (by rw [hpc]; exact hop), by rw [hpc]; rfl, by rw [hpc]; rfl⟩
  case inxAtTop =>
    exact ⟨_, step_of_inx_opcode hr (by rw [hpc]; exact hop), by rw [hpc]; rfl⟩

theorem onlyRunChanged_setRun (s : State) (r : RunState) : OnlyRunChanged s (s.setRun r) :=
  ⟨rfl, rfl, rfl, rfl, rfl, rfl, fun _ _ => rfl⟩

/-- Settles O17: raising a fault writes the run state alone, and before it the fetch has moved PC by one. -/
theorem unknownOpcodeFaults : Obligations.UnknownOpcodeFaults := by
  constructor
  · intro opcode s
    exact ⟨_, exec_unknown opcode s, rfl, onlyRunChanged_setRun s _⟩
  · intro s hr hbrk hlda hinx
    exact ⟨_, step_of_unknown_opcode hr (dispatch_unknown hbrk hlda hinx), rfl, rfl, toNat_add_one s.pc,
      rfl, rfl, rfl, rfl, rfl, fun _ _ => rfl⟩

/-- On a stopped engine both sides of R84 answer the state itself. -/
theorem runWith_iff_of_stopped {s : State} (h : s.run ≠ .running) (fuel : Nat) (t : State) :
    runWith false fuel s = some t ↔ Host.Core.run Sys2Proof.core fuel s = .next t ∧ t.run ≠ .running := by
  rw [runWith_of_stopped false h, core_run_of_stopped h]
  constructor
  · intro ht
    cases ht; exact ⟨rfl, h⟩
  · rintro ⟨ht, _⟩
    cases ht; rfl

/-- Settles O18, by induction on the fuel: while Running both sides take the same step, and once stopped both stay. -/
theorem runIsRepeatedStep : Obligations.RunIsRepeatedStep := by
  intro fuel
  induction fuel with
  | zero =>
    intro s t
    by_cases hr : s.run = .running
    · have hnone : runWith false 0 s = none := if_pos hr
      rw [hnone]
      constructor
      · exact nofun
      · rintro ⟨ht, hstop⟩
        cases ht; exact absurd hr hstop
    · exact runWith_iff_of_stopped hr 0 t
  | succ k ih =>
    intro s t
    by_cases hr : s.run = .running
    · obtain ⟨u, hu, _⟩ := stepWith_move false s
      rw [runWith_succ_of_running hr hu, core_run_succ Sys2Proof.core k s u ((step_eq_stepWith s).trans hu)]
      exact ih u t
    · exact runWith_iff_of_stopped hr (k + 1) t

/-- Settles O19, by induction on the fuel: INX moves neither Run nor memory, so the next Step finds 0xE8 again. -/
theorem memoryFullOfInxNeverEnds : Obligations.MemoryFullOfInxNeverEnds := by
  intro resumes fuel
  induction fuel with
  | zero => exact fun s hr _ => if_pos hr
  | succ k ih =>
    intro s hr hall
    rw [runWith_succ_of_running hr ((stepWith_eq_step resumes (by simp [hall])).trans (step_of_inx_opcode hr (hall s.pc)))]
    exact ih _ hr hall

/-- Two copied bytes stand in the two cells from their address on, also where it wraps (R40). -/
theorem Memory.read8_copyFrom_pair {m : Memory} (h : m.wf = true) (addr : Word) (b c : Byte) :
    [(m.copyFrom addr [b, c]).read8 addr, (m.copyFrom addr [b, c]).read8 (addr + 1)] = [b, c] := by
  have hb : (m.write8 addr b).wf = true := Memory.wf_write8 h addr b
  simp only [Memory.copyFrom]
  rw [Memory.read8_write8_ne hb (word_ne_add_one addr), Memory.read8_write8_same h, Memory.read8_write8_same hb]

/-- The bytes at PC after a table word is placed there are the word's. -/
theorem read8_withFetchWord {s : State} (h : s.mem.wf = true) (nbits w : Nat) :
    [(s.withFetchWord nbits w).mem.read8 s.pc, (s.withFetchWord nbits w).mem.read8 (s.pc + 1)] = tableBytes nbits w :=
  Memory.read8_copyFrom_pair h s.pc _ _

theorem decode_of_decodeTableWord {nbits w : Nat} {i : Instr} (h : decodeTableWord nbits w = some i) :
    ∃ rest, decode (tableBytes nbits w) = .ok (i, rest) := by
  unfold decodeTableWord at h
  split at h
  case h_1 j rest hd => cases h; exact ⟨rest, hd⟩
  case h_2 => cases h

/-- Settles O20: the write is read back at PC, and the word's bytes decode to the instruction that the next Step runs. -/
theorem placedInstructionIsTheNextToRun : Obligations.PlacedInstructionIsTheNextToRun := by
  intro s hw
  constructor
  · exact fun v => Memory.read8_write8_same hw s.pc v
  · intro nbits w i hi
    obtain ⟨rest, hd⟩ := decode_of_decodeTableWord hi
    rw [← read8_withFetchWord hw] at hd
    exact stepRunsDecodedInstruction (s.withFetchWord nbits w) i rest rfl hd

end Sys2Proof.Machine
end

section
/-! LDA in its memory modes, and STA (spec/42_load_store_transfer.md rules R93 to R97). -/

namespace Sys2Proof.Machine

/-- Settles O34: each form loads the byte at its address, which is masked to page 0. -/
theorem ldaZeroPageForms : Obligations.LdaZeroPageForms := fun operand s =>
  ⟨⟨_, exec_ldaZeroPage operand s, loadedInto_byteAt (eaZeroPage_toNat operand s)⟩,
    ⟨_, exec_ldaZeroPageX operand s, loadedInto_byteAt (eaZeroPageX_toNat operand s)⟩,
    ⟨_, exec_ldaZeroPageY operand s, loadedInto_byteAt (eaZeroPageY_toNat operand s)⟩⟩

/-- Settles O35: each form loads the byte at its address, which wraps at 16 bits. -/
theorem ldaAbsoluteForms : Obligations.LdaAbsoluteForms := fun operand s =>
  ⟨⟨_, exec_ldaAbsolute operand s, loadedInto_byteAt rfl⟩,
    ⟨_, exec_ldaAbsoluteX operand s, loadedInto_byteAt (eaAbsoluteX_toNat operand s)⟩,
    ⟨_, exec_ldaAbsoluteY operand s, loadedInto_byteAt (eaAbsoluteY_toNat operand s)⟩⟩

/-- Settles O36: each form loads the byte at the address that its two pointer bytes make. -/
theorem ldaIndirectForms : Obligations.LdaIndirectForms := fun operand s =>
  ⟨⟨_, exec_ldaIndexedIndirect operand s, loadedInto_byteAt (eaIndexedIndirect_eq_pairAt operand s)⟩,
    ⟨_, exec_ldaIndirectIndexed operand s, loadedInto_byteAt (eaIndirectIndexed_eq_pairAt operand s)⟩⟩

/-- A store at the address that the address path gives. -/
theorem storedAt_of_address {s : State} (h : s.mem.wf = true) {ea : Word} :
    ∀ ea', (Except.ok ea : Except EngineFault Word) = .ok ea' → StoredAt ea' s (s.setMem (s.mem.write8 ea s.a)) := by
  rintro _ ⟨⟩
  exact storedAt_write8 h ea

/-- Settles O37: each form writes A at its address, and a canonical memory reads that write back and nothing else new. -/
theorem staStoresOneByte : Obligations.StaStoresOneByte := fun operand s h =>
  ⟨⟨_, exec_staZeroPage operand s, storedAt_of_address h⟩, ⟨_, exec_staAbsolute operand s, storedAt_of_address h⟩,
    ⟨_, exec_staAbsoluteX operand s, storedAt_of_address h⟩, ⟨_, exec_staAbsoluteY operand s, storedAt_of_address h⟩⟩

/-- STA accepts four modes only (R96). -/
theorem staAccepts_iff (mode : Mode) :
    staAccepts mode = true ↔ mode = .zeroPage ∨ mode = .absolute ∨ mode = .absoluteX ∨ mode = .absoluteY := by
  cases mode <;> decide

/-- Settles O38: an unaccepted mode ends the handler before any effect, and the fault goes to the run state alone. -/
theorem staRejectsOtherModes : Obligations.StaRejectsOtherModes := by
  intro operand mode s hr hzp habs habsX habsY
  refine ⟨?rejects, fun op => rfl⟩
  rcases staHandler_cases operand mode s with ⟨hm, _⟩ | ⟨_, hh⟩
  · rcases (staAccepts_iff mode).1 hm with h | h | h | h <;> contradiction
  · refine ⟨raiseFault (.invalidAddressingMode .sta mode) s, ?_, rfl, onlyRunChanged_setRun s _⟩
    rw [execute, executeWith_of_running _ _ hr, callHandler, hh, settle]

end Sys2Proof.Machine
end

section
/-! The stack, and what BRK leaves on it (spec/44_brk_stack.md rules R104 to R108 and R120). -/

namespace Sys2Proof.Machine

theorem byte_add_one_toNat (b : Byte) : (b + 1).toNat = (b.toNat + 1) % 256 := BitVec.toNat_add b 1

/-- Settles O42: a push and the pop after it use the same cell, because the decrement and the increment cancel. -/
theorem popIncrementsThenReads : Obligations.PopIncrementsThenReads := by
  constructor
  · intro s
    have haddr : (stackAddr (s.sp + 1)).toNat = 0x0100 + (s.sp.toNat + 1) % 256 := by
      rw [stackAddr_toNat, byte_add_one_toNat]
    exact ⟨byte_add_one_toNat s.sp, read8_eq_byteAt haddr, rfl, rfl, rfl, rfl, rfl, rfl, rfl⟩
  · intro v s h
    rw [pop_push h]
    exact ⟨rfl, rfl⟩

/-- Settles O43: a stack address is 0x0100 plus a byte, and BRK keeps every byte but the three it pushes. -/
theorem stackStaysInPageOne : Obligations.StackStaysInPageOne := by
  refine ⟨fun sp => ?range, by decide, by decide, fun resumes s addr h hpage => ?brk⟩
  case range =>
    have := sp.isLt
    rw [stackAddr_toNat]; omega
  case brk =>
    have hne : ∀ sp, addr ≠ stackAddr sp := fun sp => stackAddr_ne_of_page sp (by omega)
    obtain ⟨_, _, _, hkept, _⟩ := interruptTaken_brkHandler resumes h
    exact hkept addr (by simp [hne])

/-- Setting a flag that is set changes nothing. -/
theorem or_mask_of_getFlag {f : Flag} {s : State} (h : getFlag f s = true) : s.p ||| f.mask = s.p := by
  refine p_eq_of_flags (s := setFlag f true s) (t := s) fun g => ?_
  rw [getFlag_setFlag]
  split
  case isTrue hg => rw [hg, h]
  case isFalse => rfl

/-- Settles O45: BRK pushes its new P, which has bits 2 and 4 on, with bits 4 and 5 forced on. -/
theorem brkPushedStatusByte : Obligations.BrkPushedStatusByte := by
  intro resumes s h
  have hp : (brkHandler resumes s).p = s.p ||| 0x14#8 := by rw [brkHandler_p, takeInterrupt_p]
  obtain ⟨_, _, hpushed, _⟩ := interruptTaken_brkHandler resumes h
  have hbyte : (brkHandler resumes s).mem.read8 (stackAddr (s.sp - 2)) = s.p ||| 0x34#8 := by
    rw [hpushed, hp, BitVec.or_assoc]; rfl
  refine ⟨hbyte, fun hi => ?interruptDisableSet, hp⟩
  case interruptDisableSet =>
    have hsplit : (0x34#8 : Byte) = Flag.i.mask ||| 0x30#8 := by decide
    rw [hbyte, hsplit, ← BitVec.or_assoc, or_mask_of_getFlag hi]

/-- Settles O46: the fetch moves PC by one and the handler by two more before it pushes. -/
theorem brkThroughStepPushesPlusThree : Obligations.BrkThroughStepPushesPlusThree := by
  intro s hr hw hop
  obtain ⟨hhigh, hlow, _⟩ := interruptTaken_brkHandler Config.brkResumes (s := s.setPc (s.pc + 1)) hw
  rw [State.setPc_sp, State.setPc_pc, toNat_add_one] at hhigh hlow
  refine ⟨_, (step_eq_stepWith s).trans (stepWith_of_brk_opcode _ hr hop), hhigh.trans ?_, hlow.trans ?_⟩ <;>
    congr 1 <;> omega

theorem brkHandler_sp (resumes : Bool) (s : State) : (brkHandler resumes s).sp = s.sp - 3 := by
  cases resumes
  · rw [brkHandler_false, State.setRun_sp, takeInterrupt_sp]
  · rw [brkHandler_true, State.setRun_sp, takeInterrupt_sp]

/-- BRK sets B and I and no other flag (R106). -/
theorem getFlag_brkHandler (f : Flag) (resumes : Bool) (s : State) :
    getFlag f (brkHandler resumes s) = (decide (f = .i) || decide (f = .b) || getFlag f s) := by
  cases resumes
  · rw [brkHandler_false, getFlag_setRun, getFlag_takeInterrupt]
  · rw [brkHandler_true, getFlag_setRun, getFlag_takeInterrupt]

theorem byte_sub_three_toNat (b : Byte) : (b - 3).toNat = (b.toNat + 253) % 256 := by bv_omega

/-- Settles O47, by induction on the number of BRKs. -/
theorem nestedBrksWrapTheStack : Obligations.NestedBrksWrapTheStack := by
  intro k s
  induction k with
  | zero =>
    have := s.sp.isLt
    exact ⟨by simp; omega, rfl, fun h => absurd h (Nat.lt_irrefl 0)⟩
  | succ k ih =>
    obtain ⟨hsp, hrun, _⟩ := ih
    rw [Function.iterate_succ_apply']
    refine ⟨?sp, ?run, fun _ => ⟨?b, ?i⟩⟩
    case sp => rw [brkHandler_sp, byte_sub_three_toNat, hsp]; omega
    case run => rw [brkHandler_run, if_pos rfl, hrun]
    case b => rw [getFlag_brkHandler]; rfl
    case i => rw [getFlag_brkHandler]; rfl

end Sys2Proof.Machine
end

section
/-! What every instruction can change (spec/10_state.md rules R13 to R29, spec/60_exceptions.md rule R117). -/

namespace Sys2Proof.Machine

/-- The rows of the opcode table by the handler they call (R2, R59). -/
theorem instr_cases (i : Instr) :
    IsLda i ∨ IsSta i ∨ i = .tax ∨ i = .inx ∨ i = .brk ∨ ∃ opcode, i = .unknown opcode := by
  cases i <;> simp [IsLda, IsSta]

/-- A form of LDA loads a byte that the state determines, P aside (R69, R93, R117). -/
theorem exec_of_isLda {i : Instr} (h : IsLda i) :
    ∃ v : State → Byte, (∀ s, exec i s = .next (loaded (v s) s)) ∧ ∀ s p, v (s.setP p) = v s := by
  rcases h with ⟨imm, rfl⟩ | ⟨operand, rfl | rfl | rfl | rfl | rfl | rfl | rfl | rfl⟩
  · exact ⟨_, exec_ldaImm imm, fun _ _ => rfl⟩
  · exact ⟨_, exec_ldaZeroPage operand, fun _ _ => rfl⟩
  · exact ⟨_, exec_ldaZeroPageX operand, fun _ _ => rfl⟩
  · exact ⟨_, exec_ldaZeroPageY operand, fun _ _ => rfl⟩
  · exact ⟨_, exec_ldaAbsolute operand, fun _ _ => rfl⟩
  · exact ⟨_, exec_ldaAbsoluteX operand, fun _ _ => rfl⟩
  · exact ⟨_, exec_ldaAbsoluteY operand, fun _ _ => rfl⟩
  · exact ⟨_, exec_ldaIndexedIndirect operand, fun _ _ => rfl⟩
  · exact ⟨_, exec_ldaIndirectIndexed operand, fun _ _ => rfl⟩

/-- A form of STA stores A at an address that the state determines, P aside (R70, R96, R117). -/
theorem exec_of_isSta {i : Instr} (h : IsSta i) :
    ∃ ea : State → Word, (∀ s, exec i s = .next (s.setMem (s.mem.write8 (ea s) s.a))) ∧
      ∀ s p, ea (s.setP p) = ea s := by
  obtain ⟨operand, rfl | rfl | rfl | rfl⟩ := h
  · exact ⟨_, exec_staZeroPage operand, fun _ _ => rfl⟩
  · exact ⟨_, exec_staAbsolute operand, fun _ _ => rfl⟩
  · exact ⟨_, exec_staAbsoluteX operand, fun _ _ => rfl⟩
  · exact ⟨_, exec_staAbsoluteY operand, fun _ _ => rfl⟩

/-- The inversion lemma of `exec`, by the handler that a row calls. -/
theorem exec_forms {i : Instr} {s t : State} (h : exec i s = .next t) :
    (IsLda i ∧ ∃ v, t = loaded v s) ∨ (IsSta i ∧ ∃ ea, t = s.setMem (s.mem.write8 ea s.a)) ∨
    (i = .tax ∧ t = setZN s.a (s.setX s.a)) ∨ (i = .inx ∧ t = setZN (s.x + 1) (s.setX (s.x + 1))) ∨
    (i = .brk ∧ t = (takeInterrupt s).setRun .halted) ∨
    ∃ opcode, i = .unknown opcode ∧ t = s.setRun (.faulted (.unknownOpcode opcode (s.pc - 1))) := by
  rcases instr_cases i with hi | hi | rfl | rfl | rfl | ⟨opcode, rfl⟩
  · obtain ⟨v, hv, _⟩ := exec_of_isLda hi
    exact .inl ⟨hi, v s, Host.Outcome.next.inj (h.symm.trans (hv s))⟩
  · obtain ⟨ea, hea, _⟩ := exec_of_isSta hi
    exact .inr (.inl ⟨hi, ea s, Host.Outcome.next.inj (h.symm.trans (hea s))⟩)
  · exact .inr (.inr (.inl ⟨rfl, Host.Outcome.next.inj (h.symm.trans (exec_tax s))⟩))
  · exact .inr (.inr (.inr (.inl ⟨rfl, Host.Outcome.next.inj (h.symm.trans (exec_inx s))⟩)))
  · exact .inr (.inr (.inr (.inr (.inl ⟨rfl, Host.Outcome.next.inj (h.symm.trans (exec_brk s))⟩))))
  · exact .inr (.inr (.inr (.inr (.inr ⟨opcode, rfl, Host.Outcome.next.inj (h.symm.trans (exec_unknown opcode s))⟩))))

/-- Settles O48, by the handler that a row calls: the next state names the fields that it writes. -/
theorem whoWritesWhat : Obligations.WhoWritesWhat := by
  intro i s t h
  rcases exec_forms h with ⟨hi, v, rfl⟩ | ⟨hi, ea, rfl⟩ | ⟨hi, rfl⟩ | ⟨hi, rfl⟩ | ⟨hi, rfl⟩ | ⟨opcode, hi, rfl⟩
  · simp [loaded, hi]
  all_goals simp [hi]

/-- Settles O49: `Effect.status` for the flags that nothing writes; the others by the handler that a row calls. -/
theorem whoWritesWhichFlag : Obligations.WhoWritesWhichFlag := by
  intro i s t h
  have he : Effect s i t := exec_inversion h
  refine ⟨he.status (by decide), he.status (by decide), he.status (by decide), he.status (by decide), he.i, ?_⟩
  rcases exec_forms h with ⟨hi, v, rfl⟩ | ⟨hi, ea, rfl⟩ | ⟨hi, rfl⟩ | ⟨hi, rfl⟩ | ⟨hi, rfl⟩ | ⟨opcode, hi, rfl⟩
  · simp [hi, loaded, getFlag_setZN]
  · simp
  · simp [hi, getFlag_setZN]
  · simp [hi, getFlag_setZN]
  · simp [hi, getFlag_takeInterrupt]
  · simp

theorem sameButStatus_setP (stored : List Word) (s : State) (p : Byte) : SameButStatus stored s (s.setP p) :=
  ⟨rfl, rfl, rfl, rfl, rfl, rfl, fun _ _ => rfl⟩

theorem SameButStatus.of_nil {stored : List Word} {s t : State} (h : SameButStatus [] s t) :
    SameButStatus stored s t := by
  obtain ⟨ha, hx, hy, hsp, hpc, hrun, hmem⟩ := h
  exact ⟨ha, hx, hy, hsp, hpc, hrun, fun addr _ => hmem addr List.not_mem_nil⟩

/-- Taking the software interrupt from two states that differ only in P: the pushed status is the one byte that may differ. -/
theorem sameButStatus_takeInterrupt {s : State} (h : s.mem.wf = true) (p : Byte) (r : RunState) :
    SameButStatus [stackAddr (s.sp - 2)] ((takeInterrupt s).setRun r) ((takeInterrupt (s.setP p)).setRun r) := by
  have hp : (s.setP p).mem.wf = true := h
  refine ⟨by simp, by simp, by simp, by simp, ?pc, rfl, fun addr ha => ?bytes⟩
  case pc => rw [State.setRun_pc, State.setRun_pc, takeInterrupt_pc h, takeInterrupt_pc hp, State.setP_mem]
  case bytes =>
    have hne : addr ≠ stackAddr (s.sp - 2) := by simpa using ha
    rw [State.setRun_mem, State.setRun_mem, takeInterrupt_read8 h, takeInterrupt_read8 hp, State.setP_sp, State.setP_pc,
      State.setP_mem, if_neg hne, if_neg hne]

/-- Nothing but BRK puts P anywhere: every other instruction from two states that differ only in P ends alike (R117). -/
theorem exec_setP_of_ne_brk {i : Instr} (hi : i ≠ .brk) (s : State) (p : Byte) :
    ∃ t t', exec i s = .next t ∧ exec i (s.setP p) = .next t' ∧ SameButStatus [] t t' := by
  rcases instr_cases i with hlda | hsta | rfl | rfl | rfl | ⟨opcode, rfl⟩
  · obtain ⟨v, hv, hvp⟩ := exec_of_isLda hlda
    refine ⟨_, _, hv s, hv (s.setP p), ?_⟩
    rw [hvp]
    exact ⟨rfl, rfl, rfl, rfl, rfl, rfl, fun _ _ => rfl⟩
  · obtain ⟨ea, hea, heap⟩ := exec_of_isSta hsta
    refine ⟨_, _, hea s, hea (s.setP p), ?_⟩
    rw [heap]
    exact sameButStatus_setP [] (s.setMem _) p
  · exact ⟨_, _, exec_tax s, exec_tax (s.setP p), rfl, rfl, rfl, rfl, rfl, rfl, fun _ _ => rfl⟩
  · exact ⟨_, _, exec_inx s, exec_inx (s.setP p), rfl, rfl, rfl, rfl, rfl, rfl, fun _ _ => rfl⟩
  · exact absurd rfl hi
  · exact ⟨_, _, exec_unknown opcode s, exec_unknown opcode (s.setP p), sameButStatus_setP [] (s.setRun _) p⟩

/-- One instruction from two states that differ only in P (R26, R117). -/
theorem exec_setP {s : State} (h : s.mem.wf = true) (p : Byte) (i : Instr) :
    ∃ t t', exec i s = .next t ∧ exec i (s.setP p) = .next t' ∧ SameButStatus [stackAddr (s.sp - 2)] t t' ∧
      (i ≠ .brk → SameButStatus [] t t') := by
  by_cases hi : i = .brk
  · subst hi
    exact ⟨_, _, exec_brk s, exec_brk (s.setP p), sameButStatus_takeInterrupt h p .halted, fun hne => absurd rfl hne⟩
  · obtain ⟨t, t', ht, ht', hsame⟩ := exec_setP_of_ne_brk hi s p
    exact ⟨t, t', ht, ht', hsame.of_nil, fun _ => hsame⟩

/-- The fetch never looks at P. -/
theorem fetchInstr_setP (s : State) (p : Byte) : fetchInstr (s.setP p) = ((fetchInstr s).1, (fetchInstr s).2.setP p) := by
  simp only [fetchInstr, fetchByte, State.setP_mem, State.setP_pc]
  cases dispatch (s.mem.read8 s.pc) <;> rfl

/-- Settles O50: neither the fetch nor a handler reads P, except that BRK pushes it. -/
theorem flagsGateNothing : Obligations.FlagsGateNothing := by
  refine fun s p' h => ⟨exec_setP h p', ?step⟩
  show ∃ t t', step s = .next t ∧ step (s.setP p') = .next t' ∧ SameButStatus [stackAddr (s.sp - 2)] t t'
  by_cases hr : s.run = .running
  · rw [step_of_running hr, step_of_running (s := s.setP p') hr, fetchInstr_setP]
    obtain ⟨pc, hpc⟩ := fetchInstr_state s
    rw [hpc]
    obtain ⟨t, t', ht, ht', hsame, _⟩ := exec_setP (s := s.setPc pc) h p' (fetchInstr s).1
    exact ⟨t, t', ht, ht', hsame⟩
  · exact ⟨s, s.setP p', step_of_stopped hr, step_of_stopped (s := s.setP p') hr, sameButStatus_setP _ s p'⟩

end Sys2Proof.Machine
end

section
/-! The Execute port, and what a fault leaves (spec/41_engine.md rules R85 to R92, spec/60_exceptions.md rule R114). -/

namespace Sys2Proof.Machine

theorem execute_of_running {s : State} (hr : s.run = .running) (c : HandlerCall) :
    execute c s = settle s (callHandler Config.brkResumes c s) :=
  executeWith_of_running Config.brkResumes c hr

/-- Settles O52: a running engine calls the handler that the row's meaning calls. -/
theorem executeIsTheMeaning : Obligations.ExecuteIsTheMeaning := by
  intro operand s hr
  have h := execute_of_running hr
  refine ⟨?immediate, h _, h _, h _, h _, h _, h _, h _, h _, h _, h _, h _, h _, h _, h _, h _⟩
  rw [h, callHandler, ldaHandler_immediate, lo8_eq_ofNat, exec_ldaImm, settle]

/-- Only BRK moves PC (R17, R87). -/
theorem Effect.pc {s t : State} {i : Instr} (he : Effect s i t) (hi : i ≠ .brk) : t.pc = s.pc := by
  cases he with
  | interrupt => exact absurd rfl hi
  | _ => rfl

/-- Only BRK and an unknown opcode write the run state (R22). -/
theorem Effect.run {s t : State} {i : Instr} (he : Effect s i t) (hi : i ≠ .brk) (hu : ∀ o, i ≠ .unknown o) :
    t.run = s.run := by
  cases he with
  | interrupt => exact absurd rfl hi
  | unknown o _ => exact absurd rfl (hu o)
  | _ => rfl

/-- Settles O53: a handler other than BRK's ends in an effect that moves neither PC nor Run, or in STA's fault. -/
theorem executeKeepsTheProgramCounter : Obligations.ExecuteKeepsTheProgramCounter := by
  intro resumes c s t h hc
  by_cases hr : s.run = .running
  · rw [executeWith_of_running resumes c hr] at h
    rcases callHandler_cases resumes c s with ⟨i, u, hh, hu, hbrk, he⟩ | ⟨operand, mode, hsta, hm, hh⟩ <;>
      rw [hh] at h <;> cases h
    · have hi : i ≠ .brk := fun hi => hc (hbrk hi)
      exact ⟨he.pc hi, fun hne => absurd (he.run hi hu) hne⟩
    · exact ⟨rfl, fun _ => ⟨operand, mode, hsta, hm, rfl⟩⟩
  · rw [executeWith_of_stopped resumes c hr] at h
    cases h
    exact ⟨rfl, fun hne => absurd rfl hne⟩

/-- Settles O51: the only effect that faults is an unknown opcode's, whose fetch is one byte long; a handler that Execute calls
faults before it writes. -/
theorem faultsArePrecise : Obligations.FaultsArePrecise := by
  intro resumes s t f hr hf
  constructor
  · intro h
    rw [stepWith_of_running resumes hr] at h
    obtain ⟨u, hu, he⟩ := execWith_effect resumes (fetchInstr s).1 (fetchInstr s).2
    obtain rfl : u = t := Host.Outcome.next.inj (hu.symm.trans h)
    rw [fetchInstr_snd] at he
    obtain ⟨⟨o, ho⟩, hkept⟩ := he.of_faulted hr hf
    rw [ho] at hkept
    exact hkept
  · intro c h
    rw [executeWith_of_running resumes c hr] at h
    rcases callHandler_cases resumes c s with ⟨i, u, hh, hu, _, he⟩ | ⟨_, mode, _, _, hh⟩ <;> rw [hh] at h <;> cases h
    · obtain ⟨⟨o, ho⟩, _⟩ := he.of_faulted hr hf
      exact absurd ho (hu o)
    · exact onlyRunChanged_setRun s _

end Sys2Proof.Machine
end

section
/-! The loads and the boot (spec/20_memory.md rules R40 to R43, spec/70_reset_and_hazards.md rule R131). -/

namespace Sys2Proof.Machine

theorem word_ofNat_toNat {n : Nat} (h : n < 65536) : (BitVec.ofNat 16 n : Word).toNat = n := by
  rw [BitVec.toNat_ofNat]; exact Nat.mod_eq_of_lt h

/-- Inside a copied image lies the image (R40). -/
theorem Memory.read8_copyFrom_inside {bytes : List Byte} {m : Memory} {origin : Word} (h : m.wf = true)
    (hfit : origin.toNat + bytes.length ≤ 65536) {i : Nat} (hi : i < bytes.length) :
    (m.copyFrom origin bytes).read8 (BitVec.ofNat 16 (origin.toNat + i)) = bytes[i] := by
  rw [Memory.read8_copyFrom bytes origin _ h hfit, word_ofNat_toNat (by omega), if_pos (by omega), Nat.add_sub_cancel_left,
    List.getElem?_eq_getElem hi, Option.getD_some]

/-- Outside a copied image memory is as before (R40). -/
theorem Memory.read8_copyFrom_outside {bytes : List Byte} {m : Memory} {origin : Word} (h : m.wf = true)
    (hfit : origin.toNat + bytes.length ≤ 65536) {addr : Nat}
    (ha : addr < origin.toNat ∨ (origin.toNat + bytes.length ≤ addr ∧ addr < 65536)) :
    (m.copyFrom origin bytes).read8 (BitVec.ofNat 16 addr) = m.read8 (BitVec.ofNat 16 addr) := by
  have := origin.isLt
  rw [Memory.read8_copyFrom bytes origin _ h hfit, word_ofNat_toNat (by omega)]
  split
  case isTrue hle => rw [List.getElem?_eq_none (by omega), Option.getD_none]
  case isFalse => rfl

/-- Settles O54: the range check decides between a copy into memory alone and the fault. -/
theorem loadImageCopiesOrRejects : Obligations.LoadImageCopiesOrRejects := by
  intro bytes origin s hw
  rcases loadImage_cases bytes origin s with ⟨hfit, hl⟩ | ⟨hbig, hl⟩
  · refine ⟨fun _ => ⟨_, hl, fun i hi => ?inside, fun addr ha => ?outside, rfl, rfl, rfl, rfl, rfl, rfl, rfl⟩,
      fun hbig => absurd hfit (Nat.not_le_of_lt hbig)⟩
    case inside => exact Memory.read8_copyFrom_inside hw hfit hi
    case outside => exact Memory.read8_copyFrom_outside hw hfit ha
  · exact ⟨fun hfit => absurd hfit (Nat.not_le_of_lt hbig), fun _ => ⟨hl, fun _ => afterHostOp_of_fault hl⟩⟩

theorem word_ofNat_ne {n k : Nat} (hn : n < 65536) (hk : k < 65536) (h : n ≠ k) :
    (BitVec.ofNat 16 n : Word) ≠ BitVec.ofNat 16 k := fun hc =>
  h (by rw [← word_ofNat_toNat hn, hc, word_ofNat_toNat hk])

/-- Away from the reset vector, the write of it changes nothing (R41). -/
theorem Memory.read8_write16_resetVector {m : Memory} (h : m.wf = true) {addr : Nat} (hlt : addr < 65536)
    (hlow : addr ≠ 0xFFFC) (hhigh : addr ≠ 0xFFFD) (value : Word) :
    (m.write16 Config.resetVector value).read8 (BitVec.ofNat 16 addr) = m.read8 (BitVec.ofNat 16 addr) :=
  Memory.read8_write16_ne h (word_ofNat_ne hlt (by decide) hlow) (word_ofNat_ne hlt (by decide) hhigh) value

/-- Settles O55: the copy as LoadImage makes it, and after it the write of the vector, which only touches its two cells. -/
theorem loadProgramPointsResetVector : Obligations.LoadProgramPointsResetVector := by
  intro bytes s hw
  rcases loadProgram_cases bytes s with ⟨hfit, hl⟩ | ⟨hbig, hl⟩
  · have hcopy : (s.mem.copyFrom Config.programOrigin bytes).wf = true := Memory.wf_copyFrom bytes _ hw
    have hend : Config.programOrigin.toNat + bytes.length ≤ 65536 := by
      show 32768 + bytes.length ≤ 65536
      omega
    refine ⟨fun _ => ⟨_, hl, Memory.read8_write16_low hcopy _ _, Memory.read8_write16_high hcopy _ _,
        fun i hi hlow hhigh => ?inside, fun addr ha hlow hhigh => ?outside, rfl, rfl, rfl, rfl, rfl, rfl, rfl⟩,
      fun hbig => absurd hfit (Nat.not_le_of_lt hbig)⟩
    case inside =>
      exact (Memory.read8_write16_resetVector hcopy (by omega) (by omega) (by omega) _).trans
        (Memory.read8_copyFrom_inside hw hend hi)
    case outside =>
      exact (Memory.read8_write16_resetVector hcopy (by omega) hlow hhigh _).trans
        (Memory.read8_copyFrom_outside hw hend ha)
  · exact ⟨fun hfit => absurd hfit (Nat.not_le_of_lt hbig), fun _ => ⟨hl, fun _ => afterHostOp_of_fault hl⟩⟩

/-- Settles O56: Reset takes PC from the vector that LoadProgram wrote, and the program's byte 0 lies there. -/
theorem bootStartsTheProgram : Obligations.BootStartsTheProgram := by
  intro first rest s t hw hl
  rcases loadProgram_cases (first :: rest) s with ⟨hfit, hl'⟩ | ⟨_, hl'⟩ <;> rw [hl'] at hl <;> cases hl
  have hcopy : (s.mem.copyFrom Config.programOrigin (first :: rest)).wf = true := Memory.wf_copyFrom _ _ hw
  have hpc := Memory.read16_write16_same hcopy Config.resetVector Config.programOrigin
  obtain ⟨u, hu, _, _, hbyte, _⟩ := (loadProgramPointsResetVector (first :: rest) s hw).1 hfit
  rw [hl'] at hu; cases hu
  refine ⟨rfl, hpc, rfl, ?first⟩
  case first => exact (congrArg _ hpc).trans (hbyte 0 (Nat.zero_lt_succ _) (by decide) (by decide))

end Sys2Proof.Machine
end

section
/-! The inspection port (spec/60_exceptions.md rule R123). -/

namespace Sys2Proof.Machine

theorem dump_length (length : Nat) (s : State) : ∀ start, (dump start length s).length = length := by
  induction length with
  | zero => exact fun _ => rfl
  | succ n ih => exact fun start => congrArg (· + 1) (ih (start + 1))

theorem getElem?_dump (s : State) : ∀ (length : Nat) (start : Word) (i : Nat), i < length →
    (dump start length s)[i]? = some (s.mem.read8 (start + BitVec.ofNat 16 i))
  | _ + 1, start, 0, _ => by simp [dump]
  | length + 1, start, i + 1, h => by
    rw [dump, List.getElem?_cons_succ, getElem?_dump s length (start + 1) i (by omega), BitVec.add_assoc,
      Nat.add_comm i 1, BitVec.ofNat_add]
    rfl

/-- Settles O57: Inspect copies the fields and reads each flag at its bit; Dump by induction on the length. -/
theorem inspectionReflectsTheState : Obligations.InspectionReflectsTheState := by
  intro s
  refine ⟨⟨rfl, rfl, rfl, rfl, rfl, rfl, rfl⟩, ?flags, fun start length => ⟨dump_length length s start, fun i hi => ?dump⟩⟩
  case flags =>
    exact ⟨getFlag_eq_bit .c s, getFlag_eq_bit .z s, getFlag_eq_bit .i s, getFlag_eq_bit .d s, getFlag_eq_bit .b s,
      getFlag_eq_bit .u s, getFlag_eq_bit .v s, getFlag_eq_bit .n s⟩
  case dump =>
    rw [getElem?_dump s length start i hi, read8_eq_byteAt (word_add_ofNat_toNat start i)]

end Sys2Proof.Machine
end
